-- ==== Sys2Proof/Word.lean ====
section
/-! DEFINITION. The word types of TOTPCORE (00_scope.md R5: every value is unsigned, bit 0 the least significant). -/

namespace Sys2Proof

/-- A byte, or an 8-bit character code (00_scope.md R5, 30_encoding.md R66). -/
abbrev Byte := BitVec 8

/-- A 32-bit word: a command word, TIMESTEP, TRUNC, a SHA-1 word. -/
abbrev Word32 := BitVec 32

/-- A 64-bit value: TIMESTAMP, COUNTER, the data of a host transaction. -/
abbrev Word64 := BitVec 64

/-- A register number of the host port, 12 bits (20_memory.md R40). -/
abbrev RegNum := BitVec 12

end Sys2Proof
end

