-- ==== Sys2Proof/Config.lean ====
section
/-! DEFINITION. The parameters of 00_scope.md R4: configuration fixed at build time, not state.
P6 (`SHA1`) has one legal value and is defined in Machine/Sha1.lean; P7 (`BUS_BINDING`) is not modelled (R4).
The spec leaves no value of the block free (45_generate_and_clear.md R133), so there is no opaque constant here. -/

namespace Sys2Proof

/-- P5, `CTR_MODE`: what the counter encoder does with a counter of 2^32 or more (41_counter_encoder.md R92). -/
inductive CtrMode where
  | fault32
  | wide64
  | trunc32
deriving DecidableEq, Repr

/-- P1 to P5 of 00_scope.md R4. -/
structure Config where
  secretMax : Nat
  keyMax    : Nat
  msgMax    : Nat
  digitsMax : Nat
  ctrMode   : CtrMode
deriving DecidableEq, Repr

/-- This hardware's values, the defaults of 00_scope.md R4 (log 5). -/
def Config.totpcore : Config where
  secretMax := 256
  keyMax    := 160
  msgMax    := 128
  digitsMax := 10
  ctrMode   := .fault32

end Sys2Proof
end

