-- ==== Sys2Proof/Syntax.lean ====
section
/-! DEFINITION. The commands of TOTPCORE, one constructor per row of spec/opcode_table.json (30_encoding.md R61). -/

namespace Sys2Proof

/-- The eight commands. A command word has no operand field (30_encoding.md R63), so no constructor has an argument. -/
inductive Instr where
  | b32dec   -- B32DEC, 40_base32_decoder.md R82
  | tcnt     -- TCNT,   41_counter_encoder.md R91
  | ctrenc   -- CTRENC, 41_counter_encoder.md R93
  | hmac     -- HMAC,   42_hmac_sha1.md R106
  | trunc    -- TRUNC,  43_dynamic_truncator.md R121
  | fmt      -- FMT,    44_code_formatter.md R126
  | gen      -- GEN,    45_generate_and_clear.md R131
  | clr      -- CLR,    45_generate_and_clear.md R132
deriving DecidableEq, Repr

end Sys2Proof
end

