-- ==== Sys2Proof/WellFormed.lean ====
section
/-! DEFINITION. Well-formedness of what is written by hand or by a host: a command word (30_encoding.md R60 to R62),
a command, and a parameter record (00_scope.md R4). The well-formedness of a state is in Safety.lean. -/

namespace Sys2Proof

/-- Field RSV of format CMD32: bits 31:8 (30_encoding.md R60). -/
def CommandWord.rsv (w : Word32) : BitVec 24 := w.extractLsb' 8 24

/-- Field OPC of format CMD32: bits 7:0 (30_encoding.md R60). -/
def CommandWord.opc (w : Word32) : Byte := w.extractLsb' 0 8

/-- A word is a legal command word when RSV is 0 and OPC is 0x01 to 0x08 (30_encoding.md R61, R62). -/
def CommandWord.wf (w : Word32) : Bool :=
  CommandWord.rsv w == 0 && decide (1 ≤ (CommandWord.opc w).toNat) && decide ((CommandWord.opc w).toNat ≤ 8)

/-- Every command is well formed: it has no operand that could be out of range (30_encoding.md R63). -/
def Instr.wf : Instr → Bool
  | .b32dec => true
  | .tcnt   => true
  | .ctrenc => true
  | .hmac   => true
  | .trunc  => true
  | .fmt    => true
  | .gen    => true
  | .clr    => true

/-- The legal ranges of 00_scope.md R4, P1 to P4 (every value of P5 is legal). -/
def Config.legal (c : Config) : Bool :=
  decide (1 ≤ c.secretMax) && decide (c.secretMax ≤ 256) &&
  decide (5 * c.secretMax / 8 ≤ c.keyMax) && decide (c.keyMax ≤ 256) &&
  decide (8 ≤ c.msgMax) && decide (c.msgMax ≤ 256) &&
  decide (1 ≤ c.digitsMax) && decide (c.digitsMax ≤ 10)

end Sys2Proof
end

