-- ==== Sys2Proof/Decode.lean ====
section
/-! DEFINITION. The command decoder (30_encoding.md R60 to R62), total on every 32-bit word, and the encoder. -/

namespace Sys2Proof

/-- Why a word is an illegal command (30_encoding.md R62). The block does not record which: ERR takes 7 for both. -/
inductive IllegalWord where
  /-- RSV is not 0, whatever OPC is. -/
  | reservedBitsSet
  /-- RSV is 0 and OPC is 0x00 or 0x09 to 0xFF. -/
  | unassignedOpcode
deriving DecidableEq, Repr

/-- The opcode map of 30_encoding.md R61, by OPC. -/
def decodeOpc (opc : Byte) : Except IllegalWord Instr :=
  match opc.toNat with
  | 0x01 => .ok .b32dec
  | 0x02 => .ok .tcnt
  | 0x03 => .ok .ctrenc
  | 0x04 => .ok .hmac
  | 0x05 => .ok .trunc
  | 0x06 => .ok .fmt
  | 0x07 => .ok .gen
  | 0x08 => .ok .clr
  | _    => .error .unassignedOpcode

/-- A command word: all 32 bits count (30_encoding.md R61, mask 0xFFFFFFFF). -/
def decode (w : Word32) : Except IllegalWord Instr :=
  if CommandWord.rsv w = 0 then decodeOpc (CommandWord.opc w) else .error .reservedBitsSet

/-- The word of a command, column "word" of 30_encoding.md R61. -/
def encode : Instr → Word32
  | .b32dec => 0x00000001
  | .tcnt   => 0x00000002
  | .ctrenc => 0x00000003
  | .hmac   => 0x00000004
  | .trunc  => 0x00000005
  | .fmt    => 0x00000006
  | .gen    => 0x00000007
  | .clr    => 0x00000008

/-- The command the decoder reads from a table row's bits `w` (the bits at and above `nbits` are 0).
A command is one 32-bit word written whole to CMD (30_encoding.md R60), so there are no bytes to lay out,
and bits above the 32nd make it no command word (log 8). -/
def decodeTableWord (nbits w : Nat) : Option Instr :=
  if w % 2 ^ nbits < 2 ^ 32 then (decode (BitVec.ofNat 32 (w % 2 ^ nbits))).toOption else none

end Sys2Proof
end

