-- ==== Sys2Proof/Machine/State.lean ====
section
/-! DEFINITION. The state of one TOTPCORE instance (10_state.md R10), the host transactions and their responses
(20_memory.md R41), and the reset state (10_state.md R30). -/

namespace Sys2Proof.Machine

open Sys2Proof

/-- A host transaction (20_memory.md R41). `write a v` is `HostWrite(a, v)` with `v` below 2^64. -/
inductive Txn where
  | write (a : RegNum) (v : Word64)
  | read (a : RegNum)
  | reset
deriving DecidableEq, Repr

/-- The response to a transaction (20_memory.md R41): `OK`, `OK` with the value read, or `FAULT` with no value.
`Reset` has no response (log 9). -/
inductive Resp where
  | ok
  | value (v : Word64)
  | fault
deriving DecidableEq, Repr

/-- The eleven items of 10_state.md R10, and the model's own two: the host's script and what the host was answered (log 1).
An optional scalar is `none` when its valid flag is 0 (R16); a buffer is its list (R24). -/
structure State where
  timestamp : Option Word64
  timestep  : Word32
  digits    : Byte
  counter   : Option Word64
  trunc     : Option Word32
  err       : Byte
  secret    : List Byte
  key       : List Byte
  msg       : List Byte
  digest    : List Byte
  code      : List Byte
  /-- The model's own: the host transactions still to be issued, the next one first. -/
  script    : List Txn
  /-- The model's own: the responses the host has received, the newest first. -/
  responses : List Resp
deriving DecidableEq, Repr

/-- No fault stops this machine: "A model gives every transaction a next state; it needs no fault state that stops
the machine" (60_exceptions.md R140). The type has no constructor (log 4). -/
inductive Fault where
deriving DecidableEq, Repr

/-- The one refusal the interface asks for. -/
inductive Refusal where
  /-- Raised by an arm of `exec` for a command that has no meaning yet. No arm of this model raises it. Safe. -/
  | notModelled (mnemonic : String)
deriving DecidableEq, Repr

/-- The state after `Reset` (10_state.md R30, 70_reset_and_hazards.md R161). Script and responses start empty (log 1). -/
def State.reset : State where
  timestamp := none
  timestep  := 30
  digits    := 6
  counter   := none
  trunc     := none
  err       := 0
  secret    := []
  key       := []
  msg       := []
  digest    := []
  code      := []
  script    := []
  responses := []

end Sys2Proof.Machine
end

