-- ==== Sys2Proof/Machine/Flags.lean ====
section
/-! DEFINITION. The status encodings: the error codes ERR can hold (30_encoding.md R64) and the VALID view (R65). -/

namespace Sys2Proof.Machine

open Sys2Proof

/-- The command errors of 60_exceptions.md R141. -/
inductive CmdError where
  | invalidEncoding
  | counterOverflow
  | invalidDigitCount
  | emptySecret
  | invalidTimeStep
  | operandNotReady
  | illegalCommand
deriving DecidableEq, Repr

/-- The code of an error (30_encoding.md R64). -/
def CmdError.code : CmdError → Byte
  | .invalidEncoding   => 1
  | .counterOverflow   => 2
  | .invalidDigitCount => 3
  | .emptySecret       => 4
  | .invalidTimeStep   => 5
  | .operandNotReady   => 6
  | .illegalCommand    => 7

/-- One valid flag as a number: 1 when the optional scalar is `some` (10_state.md R16, R23). -/
def validFlag {α : Type} (o : Option α) : Nat :=
  match o with
  | some _ => 1
  | none   => 0

/-- The VALID register as a number: VT + 2 * VC + 4 * VV (30_encoding.md R65). A view, not state (10_state.md R23). -/
def State.valid (s : State) : BitVec 3 :=
  BitVec.ofNat 3 (validFlag s.timestamp + 2 * validFlag s.counter + 4 * validFlag s.trunc)

end Sys2Proof.Machine
end

