-- ==== Sys2Proof/Machine/Operands.lean ====
section
/-! DEFINITION. The operand forms: which registers each command reads and writes (30_encoding.md R63), the buffers and
their capacities (10_state.md R17 to R21, R24), and the eleven items of 10_state.md R10 as values that can be compared. -/

namespace Sys2Proof.Machine

open Sys2Proof

/-- The five byte buffers (10_state.md R17 to R21). -/
inductive Buf where
  | secret
  | key
  | msg
  | digest
  | code
deriving DecidableEq, Repr

/-- The four buffers the host can write; it cannot write CODE (10_state.md R21, 20_memory.md R46). -/
inductive LoadBuf where
  | secret
  | key
  | msg
  | digest
deriving DecidableEq, Repr

def LoadBuf.buf : LoadBuf → Buf
  | .secret => .secret
  | .key    => .key
  | .msg    => .msg
  | .digest => .digest

/-- The capacity of a buffer (00_scope.md R4, 10_state.md R10). -/
def Buf.capacity (c : Config) : Buf → Nat
  | .secret => c.secretMax
  | .key    => c.keyMax
  | .msg    => c.msgMax
  | .digest => 20
  | .code   => c.digitsMax

/-- The content of a buffer. -/
def State.buf (s : State) : Buf → List Byte
  | .secret => s.secret
  | .key    => s.key
  | .msg    => s.msg
  | .digest => s.digest
  | .code   => s.code

/-- The eleven items of 10_state.md R10. -/
inductive Item where
  | timestamp
  | timestep
  | digits
  | counter
  | trunc
  | err
  | secret
  | key
  | msg
  | digest
  | code
deriving DecidableEq, Repr

/-- What an item holds. -/
inductive ItemValue where
  | scalar (v : Nat)
  | optional (v : Option Nat)
  | bytes (l : List Byte)
deriving DecidableEq, Repr

/-- The value of an item in a state. -/
def State.item (s : State) : Item → ItemValue
  | .timestamp => .optional (s.timestamp.map BitVec.toNat)
  | .timestep  => .scalar s.timestep.toNat
  | .digits    => .scalar s.digits.toNat
  | .counter   => .optional (s.counter.map BitVec.toNat)
  | .trunc     => .optional (s.trunc.map BitVec.toNat)
  | .err       => .scalar s.err.toNat
  | .secret    => .bytes s.secret
  | .key       => .bytes s.key
  | .msg       => .bytes s.msg
  | .digest    => .bytes s.digest
  | .code      => .bytes s.code

/-- The item a buffer is. -/
def Buf.item : Buf → Item
  | .secret => .secret
  | .key    => .key
  | .msg    => .msg
  | .digest => .digest
  | .code   => .code

/-- The destinations a failing command can clear: the optional scalars a command writes and the buffers a command
writes (60_exceptions.md R142). -/
inductive Dest where
  | counter
  | key
  | msg
  | digest
  | trunc
  | code
deriving DecidableEq, Repr

def Dest.item : Dest → Item
  | .counter => .counter
  | .key     => .key
  | .msg     => .msg
  | .digest  => .digest
  | .trunc   => .trunc
  | .code    => .code

/-- Column "reads" of 30_encoding.md R63 (the parameters, which are no state, apart). -/
def reads : Instr → List Item
  | .b32dec => [.secret]
  | .tcnt   => [.timestamp, .timestep]
  | .ctrenc => [.counter]
  | .hmac   => [.key, .msg]
  | .trunc  => [.digest]
  | .fmt    => [.trunc, .digits]
  | .gen    => [.secret, .timestamp, .timestep, .digits]
  | .clr    => []

/-- Column "writes" of 30_encoding.md R63. -/
def writes : Instr → List Item
  | .b32dec => [.key, .err]
  | .tcnt   => [.counter, .err]
  | .ctrenc => [.msg, .err]
  | .hmac   => [.digest, .err]
  | .trunc  => [.trunc, .err]
  | .fmt    => [.code, .err]
  | .gen    => [.counter, .key, .msg, .digest, .trunc, .code, .err]
  | .clr    => [.timestamp, .timestep, .digits, .counter, .trunc, .err, .secret, .key, .msg, .digest, .code]

/-- The destinations a command clears when it fails (60_exceptions.md R142): column "writes" of R63 other than ERR,
for the six commands that can fail. HMAC and CLR have no error (42_hmac_sha1.md R106, 45_generate_and_clear.md R132). -/
def dests : Instr → List Dest
  | .b32dec => [.key]
  | .tcnt   => [.counter]
  | .ctrenc => [.msg]
  | .hmac   => []
  | .trunc  => [.trunc]
  | .fmt    => [.code]
  | .gen    => [.counter, .key, .msg, .digest, .trunc, .code]
  | .clr    => []

end Sys2Proof.Machine
end

