-- ==== Sys2Proof/Machine/Ops.lean ====
section
/-! DEFINITION. The shared operations on the register file: writing a buffer, ending a command well or with an error
(60_exceptions.md R142, R143), and returning to the reset state. -/

namespace Sys2Proof.Machine

open Sys2Proof

/-- `BUF <- L`: replaces the whole content of a buffer (00_scope.md R6, 10_state.md R24). -/
def State.setBuf (s : State) (b : Buf) (l : List Byte) : State :=
  match b with
  | .secret => { s with secret := l }
  | .key    => { s with key := l }
  | .msg    => { s with msg := l }
  | .digest => { s with digest := l }
  | .code   => { s with code := l }

/-- Clears one destination: a buffer to the empty list, an optional scalar to `none` (60_exceptions.md R142 (1)). -/
def State.clear (s : State) (d : Dest) : State :=
  match d with
  | .counter => { s with counter := none }
  | .key     => { s with key := [] }
  | .msg     => { s with msg := [] }
  | .digest  => { s with digest := [] }
  | .trunc   => { s with trunc := none }
  | .code    => { s with code := [] }

/-- THE EFFECT OF A COMMAND ERROR, this block's counterpart of taking an exception (60_exceptions.md R142): every
destination is cleared, ERR is set to the code, nothing else changes. Nothing is saved and no control is transferred (R140). -/
def raise (ds : List Dest) (e : CmdError) (s : State) : State :=
  { ds.foldl State.clear s with err := e.code }

/-- A command `i` that ends with error `e` (60_exceptions.md R142). -/
def failCommand (i : Instr) (e : CmdError) (s : State) : State :=
  raise (dests i) e s

/-- An illegal command word changes ERR alone (30_encoding.md R62, 60_exceptions.md R142). -/
def illegalCommand (s : State) : State :=
  raise [] .illegalCommand s

/-- A successful command sets ERR to 0. It is the only way out of the error state: there is nothing to return from
(60_exceptions.md R143). -/
def succeed (s : State) : State :=
  { s with err := 0 }

/-- The eleven items at their reset values (10_state.md R30); the host's script and responses, which are no state of
the block, stay (log 9). Shared by CLR and `Reset` ("CLR produces the same state", 92_eei_decisions.md D22). -/
def State.cleared (s : State) : State :=
  { State.reset with script := s.script, responses := s.responses }

/-- Records a response to the host. -/
def State.respond (s : State) (r : Resp) : State :=
  { s with responses := r :: s.responses }

end Sys2Proof.Machine
end

