-- ==== Sys2Proof/Machine/Base32.lean ====
section
/-! DEFINITION. The Base32 decoder: alphabet (30_encoding.md R67), `B32Decode` (40_base32_decoder.md R80) and the command
B32DEC (R82). -/

namespace Sys2Proof.Machine

open Sys2Proof

/-- `B32Class(c)` is one of these (30_encoding.md R67). -/
inductive B32Class where
  | pad
  | val (v : BitVec 5)
  | invalid
deriving DecidableEq, Repr

/-- The class of a character code (30_encoding.md R67). -/
def b32Class (c : Byte) : B32Class :=
  let n := c.toNat
  if n = 0x3D then .pad
  else if 0x41 ≤ n ∧ n ≤ 0x5A then .val (BitVec.ofNat 5 (n - 0x41))
  else if 0x61 ≤ n ∧ n ≤ 0x7A then .val (BitVec.ofNat 5 (n - 0x61))
  else if 0x32 ≤ n ∧ n ≤ 0x37 then .val (BitVec.ofNat 5 (n - 0x32 + 26))
  else .invalid

/-- The loop of 40_base32_decoder.md R80, from accumulator `acc`, bit counter `nbits` and the bytes emitted so far. -/
def b32Loop (acc nbits : Nat) (out : List Byte) : List Byte → Except CmdError (List Byte)
  | []      => .ok out
  | c :: cs =>
    match b32Class c with
    | .pad     => b32Loop acc nbits out cs
    | .invalid => .error .invalidEncoding
    | .val v   =>
      let acc1 := (acc <<< 5) ||| v.toNat
      let nbits1 := nbits + 5
      if 8 ≤ nbits1 then
        b32Loop (acc1 &&& (1 <<< (nbits1 - 8) - 1)) (nbits1 - 8)
          (out ++ [BitVec.ofNat 8 ((acc1 >>> (nbits1 - 8)) &&& 0xFF)]) cs
      else b32Loop acc1 nbits1 out cs

/-- `B32Decode(s)` (40_base32_decoder.md R80). -/
def b32Decode (s : List Byte) : Except CmdError (List Byte) :=
  b32Loop 0 0 [] s

/-- B32DEC: SECRET to KEY (40_base32_decoder.md R82). -/
def b32dec (s : State) : State :=
  match b32Decode s.secret with
  | .ok out  => succeed { s with key := out }
  | .error e => failCommand .b32dec e s

/-- The meaning of B32DEC. -/
def execB32dec (s : State) : Host.Outcome State Fault Refusal :=
  .next (b32dec s)

end Sys2Proof.Machine
end

