-- ==== Sys2Proof/Machine/Bytes.lean ====
section
/-! DEFINITION. The byte-list and bit notation of 00_scope.md R5: big-endian lists, rotation, cutting a list into groups. -/

namespace Sys2Proof.Machine

open Sys2Proof

/-- `BE_n(v)`: the `n`-byte big-endian list of `v`, element 0 the most significant byte (00_scope.md R5). -/
def be (n v : Nat) : List Byte :=
  (List.range n).map fun k => BitVec.ofNat 8 (v >>> (8 * (n - 1 - k)))

/-- `FromBE(L)`: the number a big-endian byte list spells (00_scope.md R5). -/
def fromBE (l : List Byte) : Nat :=
  l.foldl (fun acc b => acc * 256 + b.toNat) 0

/-- `ROTL_n(v)` on a 32-bit word (00_scope.md R5). -/
def rotl (n : Nat) (v : Word32) : Word32 :=
  (v <<< n) ||| (v >>> (32 - n))

/-- The first `k` groups of `n` elements of a list, in order. -/
def groupsOf {α : Type} (n : Nat) : Nat → List α → List (List α)
  | 0, _     => []
  | k + 1, l => l.take n :: groupsOf n k (l.drop n)

theorem be_length (n v : Nat) : (be n v).length = n := by simp [be]

end Sys2Proof.Machine
end

