-- ==== Sys2Proof/Machine/Counter.lean ====
section
/-! DEFINITION. The time-step divider (41_counter_encoder.md R90, command TCNT R91) and the counter encoder
(R92, command CTRENC R93). -/

namespace Sys2Proof.Machine

open Sys2Proof

/-- `TimeCounter(t, step)` (41_counter_encoder.md R90). -/
def timeCounter (t : Word64) (step : Word32) : Except CmdError Word64 :=
  if step.toNat = 0 then .error .invalidTimeStep
  else .ok (BitVec.ofNat 64 (t.toNat / step.toNat))

/-- `CounterEncode(c)` under `CTR_MODE` (41_counter_encoder.md R92, layout 30_encoding.md R68). -/
def counterEncode (mode : CtrMode) (c : Word64) : Except CmdError (List Byte) :=
  match mode with
  | .fault32 =>
    if 2 ^ 32 ≤ c.toNat then .error .counterOverflow else .ok ([0, 0, 0, 0] ++ be 4 c.toNat)
  | .wide64  => .ok (be 8 c.toNat)
  | .trunc32 => .ok ([0, 0, 0, 0] ++ be 4 (c.toNat % 2 ^ 32))

/-- TCNT: TIMESTAMP div TIMESTEP to COUNTER; the operand check comes first (41_counter_encoder.md R91). -/
def tcnt (s : State) : State :=
  match s.timestamp with
  | none   => failCommand .tcnt .operandNotReady s
  | some t =>
    match timeCounter t s.timestep with
    | .ok c    => succeed { s with counter := some c }
    | .error e => failCommand .tcnt e s

/-- CTRENC: COUNTER to MSG as a CounterBlock (41_counter_encoder.md R93). -/
def ctrenc (cfg : Config) (s : State) : State :=
  match s.counter with
  | none   => failCommand .ctrenc .operandNotReady s
  | some c =>
    match counterEncode cfg.ctrMode c with
    | .ok block => succeed { s with msg := block }
    | .error e  => failCommand .ctrenc e s

/-- The meaning of TCNT. -/
def execTcnt (s : State) : Host.Outcome State Fault Refusal :=
  .next (tcnt s)

/-- The meaning of CTRENC, with this hardware's `CTR_MODE` (00_scope.md R4, log 5). -/
def execCtrenc (s : State) : Host.Outcome State Fault Refusal :=
  .next (ctrenc Config.totpcore s)

end Sys2Proof.Machine
end

