-- ==== Sys2Proof/Machine/Formatter.lean ====
section
/-! DEFINITION. The decimal code formatter (44_code_formatter.md R125) and the command FMT (R126). -/

namespace Sys2Proof.Machine

open Sys2Proof

/-- The character code of a decimal digit (30_encoding.md R66). -/
def digitChar (d : Nat) : Byte := BitVec.ofNat 8 (0x30 + d)

/-- The `n` decimal digits of `r`, the most significant first (44_code_formatter.md R125). -/
def decimal (r n : Nat) : List Byte :=
  (List.range n).map fun j => digitChar ((r / 10 ^ (n - 1 - j)) % 10)

/-- `Format(v, n)` under `DIGITS_MAX` (44_code_formatter.md R125); `10^n` is a natural number and never wraps. -/
def format (digitsMax : Nat) (v : Word32) (n : Byte) : Except CmdError (List Byte) :=
  if n.toNat = 0 ∨ digitsMax < n.toNat then .error .invalidDigitCount
  else .ok (decimal (v.toNat % 10 ^ n.toNat) n.toNat)

/-- FMT: TRUNC to CODE with DIGITS characters; the operand check comes first (44_code_formatter.md R126). -/
def fmt (cfg : Config) (s : State) : State :=
  match s.trunc with
  | none   => failCommand .fmt .operandNotReady s
  | some v =>
    match format cfg.digitsMax v s.digits with
    | .ok code => succeed { s with code := code }
    | .error e => failCommand .fmt e s

/-- The meaning of FMT, with this hardware's `DIGITS_MAX` (00_scope.md R4, log 5). -/
def execFmt (s : State) : Host.Outcome State Fault Refusal :=
  .next (fmt Config.totpcore s)

end Sys2Proof.Machine
end

