-- ==== Sys2Proof/Machine/Sha1.lean ====
section
/-! DEFINITION. The delegated SHA-1 core, parameter P6 of 00_scope.md R4, taken by way (a) of 42_hmac_sha1.md R101:
defined by the transcription of R102 to R105 (log 6). -/

namespace Sys2Proof.Machine

open Sys2Proof

/-- The number `z` of zero bytes of the padding (42_hmac_sha1.md R102): `(55 - L) mod 64`. -/
def padZeros (len : Nat) : Nat := (119 - len % 64) % 64

/-- `Pad(m)` (42_hmac_sha1.md R102). -/
def sha1Pad (m : List Byte) : List Byte :=
  m ++ [0x80] ++ List.replicate (padZeros m.length) 0x00 ++ be 8 (8 * m.length)

/-- `f_t(b,c,d)` (42_hmac_sha1.md R103). -/
def sha1F (t : Nat) (b c d : Word32) : Word32 :=
  if t ≤ 19 then (b &&& c) ||| (~~~b &&& d)
  else if t ≤ 39 then b ^^^ c ^^^ d
  else if t ≤ 59 then (b &&& c) ||| (b &&& d) ||| (c &&& d)
  else b ^^^ c ^^^ d

/-- `K_t` (42_hmac_sha1.md R103). -/
def sha1K (t : Nat) : Word32 :=
  if t ≤ 19 then 0x5A827999
  else if t ≤ 39 then 0x6ED9EBA1
  else if t ≤ 59 then 0x8F1BBCDC
  else 0xCA62C1D6

/-- Five words: the chaining value `H0..H4`, or the working words `a..e`. -/
structure Words5 where
  a : Word32
  b : Word32
  c : Word32
  d : Word32
  e : Word32
deriving DecidableEq, Repr

/-- The initial hash value (42_hmac_sha1.md R103). -/
def sha1Init : Words5 := ⟨0x67452301, 0xEFCDAB89, 0x98BADCFE, 0x10325476, 0xC3D2E1F0⟩

/-- The sixteen big-endian words of a 64-byte block: `W[0] .. W[15]` (42_hmac_sha1.md R104). -/
def sha1Words (block : List Byte) : List Word32 :=
  (groupsOf 4 16 block).map fun g => BitVec.ofNat 32 (fromBE g)

/-- One step of the message schedule on the words so far, the newest first: prepends
`W[t] = ROTL_1(W[t-3] ^ W[t-8] ^ W[t-14] ^ W[t-16])` (42_hmac_sha1.md R104). With fewer than sixteen words, which
never happens, it adds nothing. -/
def sha1Extend (recent : List Word32) : List Word32 :=
  match recent with
  | _ :: _ :: w3 :: _ :: _ :: _ :: _ :: w8 :: _ :: _ :: _ :: _ :: _ :: w14 :: _ :: w16 :: _ =>
    rotl 1 (w3 ^^^ w8 ^^^ w14 ^^^ w16) :: recent
  | _ => recent

/-- `k` steps of the message schedule. -/
def sha1ExtendBy : Nat → List Word32 → List Word32
  | 0, recent     => recent
  | k + 1, recent => sha1ExtendBy k (sha1Extend recent)

/-- The message schedule `W[0] .. W[79]` of a block (42_hmac_sha1.md R104). -/
def sha1Schedule (block : List Byte) : List Word32 :=
  (sha1ExtendBy 64 (sha1Words block).reverse).reverse

/-- Round `t` with schedule word `w` on the working words (42_hmac_sha1.md R104). -/
def sha1Round (t : Nat) (w : Word32) (h : Words5) : Words5 where
  a := rotl 5 h.a + sha1F t h.b h.c h.d + h.e + sha1K t + w
  b := h.a
  c := rotl 30 h.b
  d := h.c
  e := h.d

/-- The rounds from round `t` on, one for each schedule word, in order. -/
def sha1Rounds : Nat → List Word32 → Words5 → Words5
  | _, [], h      => h
  | t, w :: ws, h => sha1Rounds (t + 1) ws (sha1Round t w h)

/-- One block: eighty rounds, then addition into the chaining value (42_hmac_sha1.md R104). -/
def sha1Block (h : Words5) (block : List Byte) : Words5 :=
  let r := sha1Rounds 0 (sha1Schedule block) h
  ⟨h.a + r.a, h.b + r.b, h.c + r.c, h.d + r.d, h.e + r.e⟩

/-- The chaining value after the last block of the padded message (42_hmac_sha1.md R104). -/
def sha1Chain (m : List Byte) : Words5 :=
  (groupsOf 64 ((sha1Pad m).length / 64) (sha1Pad m)).foldl sha1Block sha1Init

/-- The output bytes of a chaining value: five big-endian words (42_hmac_sha1.md R105). -/
def Words5.bytes (h : Words5) : List Byte :=
  be 4 h.a.toNat ++ be 4 h.b.toNat ++ be 4 h.c.toNat ++ be 4 h.d.toNat ++ be 4 h.e.toNat

/-- `SHA1(m)` (42_hmac_sha1.md R101, R105). -/
def sha1 (m : List Byte) : List Byte :=
  (sha1Chain m).bytes

theorem Words5.bytes_length (h : Words5) : h.bytes.length = 20 := by
  simp [Words5.bytes, be_length]

theorem sha1_length (m : List Byte) : (sha1 m).length = 20 :=
  Words5.bytes_length _

end Sys2Proof.Machine
end

