-- ==== Sys2Proof/Machine/Hmac.lean ====
section
/-! DEFINITION. The HMAC-SHA1 engine around the SHA-1 core (42_hmac_sha1.md R100) and the command HMAC (R106). -/

namespace Sys2Proof.Machine

open Sys2Proof

/-- `k0` of 42_hmac_sha1.md R100: a key of more than 64 bytes is hashed first, then zero bytes fill up to 64. -/
def hmacKey (key : List Byte) : List Byte :=
  let k := if 64 < key.length then sha1 key else key
  k ++ List.replicate (64 - k.length) 0x00

/-- `HmacSha1(key, msg)` (42_hmac_sha1.md R100): `ipad` is `k0` with 0x36, `opad` is `k0` with 0x5C. -/
def hmacSha1 (key msg : List Byte) : List Byte :=
  let ipad := (hmacKey key).map fun k => k ^^^ 0x36
  let opad := (hmacKey key).map fun k => k ^^^ 0x5C
  sha1 (opad ++ sha1 (ipad ++ msg))

/-- "returns a list of exactly 20 bytes" (42_hmac_sha1.md R100). -/
theorem hmacSha1_length (key msg : List Byte) : (hmacSha1 key msg).length = 20 :=
  sha1_length _

/-- HMAC: the HMAC-SHA1 of MSG under KEY to DIGEST; it has no error (42_hmac_sha1.md R106). -/
def hmac (s : State) : State :=
  succeed { s with digest := hmacSha1 s.key s.msg }

/-- The meaning of HMAC. -/
def execHmac (s : State) : Host.Outcome State Fault Refusal :=
  .next (hmac s)

end Sys2Proof.Machine
end

