-- ==== Sys2Proof/Machine/Truncator.lean ====
section
/-! DEFINITION. The dynamic truncator (43_dynamic_truncator.md R120) and the command TRUNC (R121). -/

namespace Sys2Proof.Machine

open Sys2Proof

/-- The offset `o = d[19] & 0x0F` of a 20-byte digest (43_dynamic_truncator.md R120). -/
def truncOffset (d : List Byte) (h : d.length = 20) : Nat :=
  ((d[19]'(by omega)) &&& 0x0F).toNat

/-- The window lies within the digest: the offset is at most 15 (43_dynamic_truncator.md R120). -/
theorem truncOffset_le (d : List Byte) (h : d.length = 20) : truncOffset d h ≤ 15 := by
  simpa [truncOffset] using Nat.and_le_right

/-- `Truncate(d)` for a list of exactly 20 bytes (43_dynamic_truncator.md R120). -/
def truncate (d : List Byte) (h : d.length = 20) : Word32 :=
  let o := truncOffset d h
  have ho : o ≤ 15 := truncOffset_le d h
  ((((d[o]'(by omega)) &&& 0x7F).setWidth 32) <<< 24) |||
  (((d[o + 1]'(by omega)).setWidth 32) <<< 16) |||
  (((d[o + 2]'(by omega)).setWidth 32) <<< 8) |||
  ((d[o + 3]'(by omega)).setWidth 32)

/-- TRUNC: DIGEST to TRUNC, when DIGEST holds exactly 20 bytes (43_dynamic_truncator.md R121). -/
def trunc (s : State) : State :=
  if h : s.digest.length = 20 then succeed { s with trunc := some (truncate s.digest h) }
  else failCommand .trunc .operandNotReady s

/-- The meaning of TRUNC. -/
def execTrunc (s : State) : Host.Outcome State Fault Refusal :=
  .next (trunc s)

end Sys2Proof.Machine
end

