-- ==== Sys2Proof/Machine/Pipeline.lean ====
section
/-! DEFINITION. The pipeline function (45_generate_and_clear.md R130), the command GEN (R131) and the command CLR (R132). -/

namespace Sys2Proof.Machine

open Sys2Proof

/-- The six values of a successful `Generate` (45_generate_and_clear.md R130). -/
structure Generated where
  counter : Word64
  key     : List Byte
  block   : List Byte
  digest  : List Byte
  value   : Word32
  code    : List Byte
deriving DecidableEq, Repr

/-- `Generate(secret, t, step, n)` (45_generate_and_clear.md R130): the steps in the order of its list, the first
failing step's error. -/
def generate (cfg : Config) (secret : List Byte) (t : Word64) (step : Word32) (n : Byte) :
    Except CmdError Generated :=
  match timeCounter t step with                                      -- 1
  | .error e => .error e
  | .ok c =>
    match b32Decode secret with                                      -- 2
    | .error e => .error e
    | .ok key =>
      if key.length = 0 then .error .emptySecret                     -- 2b
      else
        match counterEncode cfg.ctrMode c with                       -- 3
        | .error e => .error e
        | .ok block =>
          let digest := hmacSha1 key block                           -- 4
          let v := truncate digest (hmacSha1_length key block)       -- 5
          match format cfg.digitsMax v n with                        -- 6
          | .error e => .error e
          | .ok code => .ok ⟨c, key, block, digest, v, code⟩

/-- GEN: the whole pipeline on the operand registers; on any error all six destinations are cleared
(45_generate_and_clear.md R131). -/
def gen (cfg : Config) (s : State) : State :=
  match s.timestamp with
  | none   => failCommand .gen .operandNotReady s
  | some t =>
    match generate cfg s.secret t s.timestep s.digits with
    | .ok g =>
      succeed { s with
        counter := some g.counter
        key     := g.key
        msg     := g.block
        digest  := g.digest
        trunc   := some g.value
        code    := g.code }
    | .error e => failCommand .gen e s

/-- CLR: every item to its reset value (45_generate_and_clear.md R132). -/
def clr (s : State) : State :=
  s.cleared

/-- The meaning of GEN, with this hardware's parameters (00_scope.md R4, log 5). -/
def execGen (s : State) : Host.Outcome State Fault Refusal :=
  .next (gen Config.totpcore s)

/-- The meaning of CLR. -/
def execClr (s : State) : Host.Outcome State Fault Refusal :=
  .next (clr s)

end Sys2Proof.Machine
end

