-- ==== Sys2Proof/Machine/Dispatch.lean ====
section
/-! DEFINITION. One arm per command (30_encoding.md R61). -/

namespace Sys2Proof.Machine

open Sys2Proof

def exec (i : Instr) (s : State) : Host.Outcome State Fault Refusal :=
  match i with
  | .b32dec => Sys2Proof.Machine.execB32dec s
  | .tcnt => Sys2Proof.Machine.execTcnt s
  | .ctrenc => Sys2Proof.Machine.execCtrenc s
  | .hmac => Sys2Proof.Machine.execHmac s
  | .trunc => Sys2Proof.Machine.execTrunc s
  | .fmt => Sys2Proof.Machine.execFmt s
  | .gen => Sys2Proof.Machine.execGen s
  | .clr => Sys2Proof.Machine.execClr s

end Sys2Proof.Machine
end

