-- ==== Sys2Proof/Machine/HostPort.lean ====
section
/-! DEFINITION. The host port: the register map (20_memory.md R57), `HostWrite` and `HostRead` with their access faults
(R41 to R48, R55), and the three kinds of transaction. -/

namespace Sys2Proof.Machine

open Sys2Proof

/-- The registers of the map (20_memory.md R57). `data b i` is `B_DATA[i]`. CODE has no push register (R46). -/
inductive Reg where
  | cmd
  | err
  | valid
  | timestamp
  | timestep
  | digits
  | counter
  | trunc
  | len (b : Buf)
  | push (b : LoadBuf)
  | data (b : Buf) (i : Nat)
deriving DecidableEq, Repr

/-- How many numbers the data window of a buffer has (20_memory.md R57). -/
def Buf.window : Buf → Nat
  | .secret => 256
  | .key    => 256
  | .msg    => 256
  | .digest => 20
  | .code   => 10

/-- The first number of a buffer's data window (20_memory.md R47, R57). -/
def Buf.base : Buf → Nat
  | .secret => 0x100
  | .key    => 0x200
  | .msg    => 0x300
  | .digest => 0x400
  | .code   => 0x500

/-- The data register `i` of a buffer, if its window has one. -/
def dataReg (b : Buf) (i : Nat) : Option Reg :=
  if i < b.window then some (.data b i) else none

/-- The register a number names, `none` when it is unmapped (20_memory.md R57). -/
def regOf (a : RegNum) : Option Reg :=
  match a.toNat / 256 with
  | 0 =>
    match a.toNat with
    | 0x000 => some .cmd
    | 0x001 => some .err
    | 0x002 => some .valid
    | 0x003 => some .timestamp
    | 0x004 => some .timestep
    | 0x005 => some .digits
    | 0x006 => some .counter
    | 0x007 => some .trunc
    | 0x008 => some (.len .secret)
    | 0x009 => some (.push .secret)
    | 0x00A => some (.len .key)
    | 0x00B => some (.push .key)
    | 0x00C => some (.len .msg)
    | 0x00D => some (.push .msg)
    | 0x00E => some (.len .digest)
    | 0x00F => some (.push .digest)
    | 0x010 => some (.len .code)
    | _     => none
  | 1 => dataReg .secret (a.toNat - 0x100)
  | 2 => dataReg .key (a.toNat - 0x200)
  | 3 => dataReg .msg (a.toNat - 0x300)
  | 4 => dataReg .digest (a.toNat - 0x400)
  | 5 => dataReg .code (a.toNat - 0x500)
  | _ => none

/-- The number of a register (20_memory.md R57). -/
def Reg.number : Reg → RegNum
  | .cmd          => 0x000
  | .err          => 0x001
  | .valid        => 0x002
  | .timestamp    => 0x003
  | .timestep     => 0x004
  | .digits       => 0x005
  | .counter      => 0x006
  | .trunc        => 0x007
  | .len .secret  => 0x008
  | .push .secret => 0x009
  | .len .key     => 0x00A
  | .push .key    => 0x00B
  | .len .msg     => 0x00C
  | .push .msg    => 0x00D
  | .len .digest  => 0x00E
  | .push .digest => 0x00F
  | .len .code    => 0x010
  | .data b i     => BitVec.ofNat 12 (b.base + i)

/-- A data register exists when its index lies in the buffer's window (20_memory.md R57). -/
def Reg.mapped : Reg → Bool
  | .data b i => decide (i < b.window)
  | _         => true

/-- The width in bits of a register (20_memory.md R57). -/
def Reg.width : Reg → Nat
  | .cmd       => 32
  | .err       => 8
  | .valid     => 3
  | .timestamp => 64
  | .timestep  => 32
  | .digits    => 8
  | .counter   => 64
  | .trunc     => 32
  | .len _     => 16
  | .push _    => 8
  | .data _ _  => 8

/-- The access-fault causes of 20_memory.md R55, in its order. The block records none of them (R42). -/
inductive AccessFault where
  | unmapped
  | noHostWrite
  | noHostRead
  | dataOutOfRange
  | nonzeroLength
  | pushToFull
  | indexBeyondLength
  | scalarNone
deriving DecidableEq, Repr

/-- What an accepted write does: it leaves a new state, or it runs a command word (20_memory.md R48). -/
inductive Accepted where
  | stored (s : State)
  | command (w : Word32)
deriving DecidableEq, Repr

/-- Appends a byte to a buffer unless it is full (20_memory.md R46). -/
def pushByte (cfg : Config) (s : State) (b : LoadBuf) (x : Byte) : Except AccessFault Accepted :=
  if (s.buf b.buf).length < b.buf.capacity cfg then
    .ok (.stored (s.setBuf b.buf (s.buf b.buf ++ [x])))
  else .error .pushToFull

/-- A host write of `v`, in range for the register, to a register (20_memory.md R44 to R48). -/
def writeInRange (cfg : Config) (s : State) (r : Reg) (v : Word64) : Except AccessFault Accepted :=
  match r with
  | .cmd       => .ok (.command (v.setWidth 32))
  | .timestamp => .ok (.stored { s with timestamp := some v })
  | .timestep  => .ok (.stored { s with timestep := v.setWidth 32 })
  | .digits    => .ok (.stored { s with digits := v.setWidth 8 })
  | .counter   => .ok (.stored { s with counter := some v })
  | .trunc     => .ok (.stored { s with trunc := some (v.setWidth 32) })
  | .len .code => .error .noHostWrite
  | .len b     => if v = 0 then .ok (.stored (s.setBuf b [])) else .error .nonzeroLength
  | .push b    => pushByte cfg s b (v.setWidth 8)
  | .err       => .error .noHostWrite
  | .valid     => .error .noHostWrite
  | .data _ _  => .error .noHostWrite

/-- Whether a register has a host write at all (20_memory.md R57, column "host write"). -/
def Reg.writable : Reg → Bool
  | .cmd       => true
  | .err       => false
  | .valid     => false
  | .timestamp => true
  | .timestep  => true
  | .digits    => true
  | .counter   => true
  | .trunc     => true
  | .len .code => false
  | .len _     => true
  | .push _    => true
  | .data _ _  => false

/-- Decides a host write: the fault it ends in, or what it does (20_memory.md R42 to R48, R55). Where several causes
hold the model names the first of this order; which one is not observable (log 7). -/
def acceptWrite (cfg : Config) (s : State) (a : RegNum) (v : Word64) : Except AccessFault Accepted :=
  match regOf a with
  | none   => .error .unmapped
  | some r =>
    if r.writable = false then .error .noHostWrite
    else if 2 ^ r.width ≤ v.toNat then .error .dataOutOfRange
    else writeInRange cfg s r v

/-- A read of an optional scalar: a fault when it is `none` (20_memory.md R44). -/
def readScalar {n : Nat} (o : Option (BitVec n)) : Except AccessFault Word64 :=
  match o with
  | some v => .ok (v.setWidth 64)
  | none   => .error .scalarNone

/-- A host read of a register (20_memory.md R44 to R48). It cannot change the state (R41, R49). -/
def readReg (s : State) (r : Reg) : Except AccessFault Word64 :=
  match r with
  | .cmd       => .error .noHostRead
  | .err       => .ok (s.err.setWidth 64)
  | .valid     => .ok (s.valid.setWidth 64)
  | .timestamp => readScalar s.timestamp
  | .timestep  => .ok (s.timestep.setWidth 64)
  | .digits    => .ok (s.digits.setWidth 64)
  | .counter   => readScalar s.counter
  | .trunc     => readScalar s.trunc
  | .len b     => .ok (BitVec.ofNat 64 (s.buf b).length)
  | .push _    => .error .noHostRead
  | .data b i  =>
    match (s.buf b)[i]? with
    | some x => .ok (x.setWidth 64)
    | none   => .error .indexBeyondLength

/-- Decides a host read: the fault it ends in, or the value (20_memory.md R55). -/
def acceptRead (s : State) (a : RegNum) : Except AccessFault Word64 :=
  match regOf a with
  | none   => .error .unmapped
  | some r => readReg s r

/-- `HostRead(a)` (20_memory.md R41): `OK` and a value, or `FAULT` and no value. -/
def hostRead (s : State) (a : RegNum) : Resp :=
  match acceptRead s a with
  | .ok v    => .value v
  | .error _ => .fault

/-- Runs the command a word encodes; an illegal word sets ERR to 7 alone (20_memory.md R48, 30_encoding.md R62). -/
def runWord (w : Word32) (s : State) : Host.Outcome State Fault Refusal :=
  match decode w with
  | .ok i    => exec i s
  | .error _ => .next (illegalCommand s)

/-- `HostWrite(a, v)` on this hardware (20_memory.md R41): the state after it and the response. A CMD write runs its
command to completion and answers `OK` whatever the command's outcome (R48); a faulting write changes nothing (R42). -/
def hostWrite (s : State) (a : RegNum) (v : Word64) : Host.Outcome (State × Resp) Fault Refusal :=
  match acceptWrite Config.totpcore s a v with
  | .error _        => .next (s, .fault)
  | .ok (.stored t) => .next (t, .ok)
  | .ok (.command w) =>
    match runWord w s with
    | .next t    => .next (t, .ok)
    | .fault f   => .fault f
    | .refused r => .refused r

/-- `Reset` (70_reset_and_hazards.md R160, R161). -/
def hostReset (s : State) : State :=
  s.cleared

/-- One transaction, its response recorded for the host (20_memory.md R41). `Reset` has no response (log 9). -/
def transact (x : Txn) (s : State) : Host.Outcome State Fault Refusal :=
  match x with
  | .write a v =>
    match hostWrite s a v with
    | .next (t, r) => .next (t.respond r)
    | .fault f     => .fault f
    | .refused r   => .refused r
  | .read a => .next (s.respond (hostRead s a))
  | .reset  => .next (hostReset s)

/-- A script, one transaction after the other in order (20_memory.md R52). -/
def runScript : List Txn → State → Host.Outcome State Fault Refusal
  | [], s      => .next s
  | x :: xs, s =>
    match transact x s with
    | .next t    => runScript xs t
    | .fault f   => .fault f
    | .refused r => .refused r

end Sys2Proof.Machine
end

