-- ==== Sys2Proof/Machine/Step.lean ====
section
/-! DEFINITION. One step: the host issues the next transaction of its script (20_memory.md R41, R52; log 1). -/

namespace Sys2Proof.Machine

open Sys2Proof

/-- One step. With no transaction left the block does nothing: it "acts only inside a host transaction"
(60_exceptions.md R145; log 2). -/
def step (s : State) : Host.Outcome State Fault Refusal :=
  match s.script with
  | []      => .next s
  | x :: xs => transact x { s with script := xs }

/-- The state in which the host's next transaction is the CMD write of a table row's word `w` (the bits at and above
`nbits` are 0). The block loads no program: a script comes from the host (log 1). -/
def State.withFetchWord (s : State) (nbits w : Nat) : State :=
  { s with script := .write 0x000 (BitVec.ofNat 64 (w % 2 ^ nbits)) :: s.script }

end Sys2Proof.Machine
end

