-- ==== Sys2Proof/Machine/Script.lean ====
section
/-! DEFINITION. The host's side: the script lines and pseudo-operations of 30_encoding.md R70 and R71, and the Base32
encoder of 95_test_vectors.md section 2.3, a helper that states the round trip of 40_base32_decoder.md R83 and is no
part of the block (00_scope.md R3). -/

namespace Sys2Proof.Machine

open Sys2Proof

/-- `WR <reg>, <value>` (30_encoding.md R70). -/
def wr (r : Reg) (v : Word64) : Txn := .write r.number v

/-- `RD <reg>` (30_encoding.md R70). -/
def rd (r : Reg) : Txn := .read r.number

/-- `CMD <mnemonic>`: `WR CMD, <word>` (30_encoding.md R70). -/
def cmd (i : Instr) : Txn := wr .cmd ((encode i).setWidth 64)

/-- `LDSTR <B>, "text"` and `LDHEX <B>, h0 h1 ...`: empty the buffer, then push each element in order
(30_encoding.md R71). -/
def load (b : LoadBuf) (l : List Byte) : List Txn :=
  wr (.len b.buf) 0 :: l.map fun x => wr (.push b) (x.setWidth 64)

/-- `RDBUF <B>` once `RD <B>_LEN` has answered `n` (30_encoding.md R71; log 10). -/
def rdbuf (b : Buf) (n : Nat) : List Txn :=
  rd (.len b) :: (List.range n).map fun i => rd (.data b i)

/-- `TOTP "secret", t [, step [, digits]]` up to `RD ERR` (30_encoding.md R71). Its last line, `RDBUF CODE`, depends on
the length read and is `rdbuf .code n` (log 10). -/
def totp (secret : List Byte) (t : Word64) (step : Option Word32) (digits : Option Byte) : List Txn :=
  load .secret secret ++ [wr .timestamp t]
    ++ (step.toList.map fun x => wr .timestep (x.setWidth 64))
    ++ (digits.toList.map fun x => wr .digits (x.setWidth 64))
    ++ [cmd .gen, rd .err]

/-- The bits of a byte, most significant first. -/
def byteBits (b : Byte) : List Bool :=
  (List.range 8).map fun i => b.getLsbD (7 - i)

/-- The number a group of bits spells, first bit most significant. -/
def bitsValue (l : List Bool) : Nat :=
  l.foldl (fun acc b => 2 * acc + b.toNat) 0

/-- `ALPHA[g]`: the character of a 5-bit value (95_test_vectors.md section 2.3, 30_encoding.md R67). -/
def b32Char (g : Nat) : Byte :=
  if g < 26 then BitVec.ofNat 8 (0x41 + g) else BitVec.ofNat 8 (0x32 + (g - 26))

/-- The characters of `B32Encode` before padding: the bits of `b`, filled up with zero bits to a multiple of 5, in
groups of 5 (95_test_vectors.md section 2.3). -/
def b32Chars (b : List Byte) : List Byte :=
  let bits := b.flatMap byteBits
  let filled := bits ++ List.replicate ((5 - bits.length % 5) % 5) false
  (groupsOf 5 (filled.length / 5) filled).map fun g => b32Char (bitsValue g)

/-- `B32Encode(b, padded)` (95_test_vectors.md section 2.3). -/
def b32Encode (b : List Byte) (padded : Bool) : List Byte :=
  let chars := b32Chars b
  if padded then chars ++ List.replicate ((8 - chars.length % 8) % 8) 0x3D else chars

end Sys2Proof.Machine
end

