-- ==== Sys2Proof/Safety.lean ====
section
/-! DEFINITION. The terms claims are stated in: the well-formedness of a state, what it is for a command to leave
items unchanged, and forms of the spec's functions and conditions that are written apart from the machine's own
(the closed form of 40_base32_decoder.md R81, the 12-bit decoder of R83, the contract of 42_hmac_sha1.md R101, the fault
causes of 20_memory.md R55 by register number). The machine uses none of them. -/

namespace Sys2Proof.Machine

open Sys2Proof

/-! ## States -/

/-- A decimal digit's character code (30_encoding.md R66). -/
def isDigitChar (c : Byte) : Bool := decide (0x30 ≤ c.toNat) && decide (c.toNat ≤ 0x39)

/-- The invariant of the register file: every buffer is within its capacity (10_state.md R24), ERR holds a code of
30_encoding.md R64, and every element of CODE is a decimal digit (10_state.md R21). -/
def State.wf (cfg : Config) (s : State) : Bool :=
  decide (s.secret.length ≤ Buf.secret.capacity cfg) &&
  decide (s.key.length ≤ Buf.key.capacity cfg) &&
  decide (s.msg.length ≤ Buf.msg.capacity cfg) &&
  decide (s.digest.length ≤ Buf.digest.capacity cfg) &&
  decide (s.code.length ≤ Buf.code.capacity cfg) &&
  decide (s.err.toNat ≤ 7) &&
  s.code.all isDigitChar

/-- The two states agree on the items `xs`. -/
def agreeOn (xs : List Item) (s t : State) : Prop := ∀ x ∈ xs, s.item x = t.item x

/-- From `s` to `t` no item changed but the items `xs`. -/
def unchangedBut (xs : List Item) (s t : State) : Prop := ∀ x, x ∉ xs → t.item x = s.item x

/-- From `s` to `t` the model's own fields, which stand for the host, did not change (logs 1 and 9). -/
def hostUnchanged (s t : State) : Prop := t.script = s.script ∧ t.responses = s.responses

/-- The one item a register of the map is for (20_memory.md R44 to R47, R57): the scalar itself, or the buffer of a
length, push or data register. CMD keeps nothing and VALID is a view: they are for no item (10_state.md R23, R26). -/
def Reg.item? : Reg → Option Item
  | .cmd       => none
  | .err       => some .err
  | .valid     => none
  | .timestamp => some .timestamp
  | .timestep  => some .timestep
  | .digits    => some .digits
  | .counter   => some .counter
  | .trunc     => some .trunc
  | .len b     => some b.item
  | .push b    => some b.buf.item
  | .data b _  => some b.item

/-- The block's eleven items are those of the reset state (10_state.md R30). -/
def atReset (t : State) : Prop := ∀ x, t.item x = State.reset.item x

/-! ## Base32 -/

/-- Some character is outside the alphabet and is not `=` (60_exceptions.md R141, code 1). -/
def b32HasInvalid (s : List Byte) : Bool := s.any fun c => decide (b32Class c = .invalid)

/-- The values `v_0 .. v_(n-1)` of the non-pad characters (40_base32_decoder.md R81). -/
def b32Values (s : List Byte) : List Nat :=
  s.filterMap fun c =>
    match b32Class c with
    | .val v => some v.toNat
    | _      => none

/-- `N`: the number the values spell in base 32, the first most significant (40_base32_decoder.md R81). -/
def b32Number (vs : List Nat) : Nat := vs.foldl (fun acc v => acc * 32 + v) 0

/-- The bytes of the closed form: `out[j] = (N >> (5n - 8(j+1))) & 0xFF` for `j < (5n) div 8` (40_base32_decoder.md R81). -/
def b32Closed (vs : List Nat) : List Byte :=
  (List.range (5 * vs.length / 8)).map fun j =>
    BitVec.ofNat 8 (b32Number vs / 2 ^ (5 * vs.length - 8 * (j + 1)) % 256)

/-- The other case of a letter, any other code unchanged (40_base32_decoder.md R83). -/
def otherCase (c : Byte) : Byte :=
  if 0x41 ≤ c.toNat ∧ c.toNat ≤ 0x5A then c + 0x20
  else if 0x61 ≤ c.toNat ∧ c.toNat ≤ 0x7A then c - 0x20
  else c

/-- The loop of 40_base32_decoder.md R80 on a 12-bit accumulator and a 4-bit counter, which R83 says are wide enough. -/
def b32Loop12 (acc : BitVec 12) (nbits : BitVec 4) (out : List Byte) : List Byte → Except CmdError (List Byte)
  | []      => .ok out
  | c :: cs =>
    match b32Class c with
    | .pad     => b32Loop12 acc nbits out cs
    | .invalid => .error .invalidEncoding
    | .val v   =>
      let acc1 := (acc <<< 5) ||| v.setWidth 12
      let nbits1 := nbits + 5
      if 8 ≤ nbits1.toNat then
        b32Loop12 (acc1 &&& ((1 : BitVec 12) <<< (nbits1.toNat - 8) - 1)) (nbits1 - 8)
          (out ++ [(acc1 >>> (nbits1.toNat - 8)).setWidth 8]) cs
      else b32Loop12 acc1 nbits1 out cs

/-! ## SHA-1 -/

/-- Block processing from chaining value `h` over the 64-byte block `M` to `h'`, with the schedule `W` and the working
words `r t` before round `t` written out (42_hmac_sha1.md R104). -/
def Sha1BlockStep (h : Words5) (M : List Byte) (h' : Words5) : Prop :=
  ∃ (W : Nat → Word32) (r : Nat → Words5),
    (∀ t < 16, W t = BitVec.ofNat 32 (fromBE ((M.drop (4 * t)).take 4))) ∧
    (∀ t, 16 ≤ t → t < 80 → W t = rotl 1 (W (t - 3) ^^^ W (t - 8) ^^^ W (t - 14) ^^^ W (t - 16))) ∧
    r 0 = h ∧
    (∀ t < 80, r (t + 1) =
      ⟨rotl 5 (r t).a + sha1F t (r t).b (r t).c (r t).d + (r t).e + sha1K t + W t,
        (r t).a, rotl 30 (r t).b, (r t).c, (r t).d⟩) ∧
    h' = ⟨h.a + (r 80).a, h.b + (r 80).b, h.c + (r 80).c, h.d + (r 80).d, h.e + (r 80).e⟩

/-- `d` is the SHA-1 hash of `m` (42_hmac_sha1.md R102, R104, R105): the padding with the least `z`, the blocks in
order from the initial hash value, the five output words. -/
def Sha1Contract (m d : List Byte) : Prop :=
  ∃ (z n : Nat) (padded : List Byte) (H : Nat → Words5),
    (m.length + 1 + z) % 64 = 56 ∧
    (∀ z', (m.length + 1 + z') % 64 = 56 → z ≤ z') ∧
    padded = m ++ [0x80] ++ List.replicate z 0x00 ++ be 8 (8 * m.length) ∧
    padded.length = 64 * n ∧
    H 0 = ⟨0x67452301, 0xEFCDAB89, 0x98BADCFE, 0x10325476, 0xC3D2E1F0⟩ ∧
    (∀ k < n, Sha1BlockStep (H k) ((padded.drop (64 * k)).take 64) (H (k + 1))) ∧
    d = be 4 (H n).a.toNat ++ be 4 (H n).b.toNat ++ be 4 (H n).c.toNat ++ be 4 (H n).d.toNat ++ be 4 (H n).e.toNat

/-! ## Decimal -/

/-- The number a list of decimal character codes spells, read as decimal (44_code_formatter.md R127). -/
def decimalValue (l : List Byte) : Nat := l.foldl (fun acc c => acc * 10 + (c.toNat - 0x30)) 0

/-! ## Access faults by register number -/

/-- Register numbers not in the map (20_memory.md R57, "Unmapped"). -/
def unmappedNumber (n : Nat) : Prop :=
  (0x011 ≤ n ∧ n ≤ 0x0FF) ∨ (0x414 ≤ n ∧ n ≤ 0x4FF) ∨ 0x50A ≤ n

/-- The causes of 20_memory.md R55 that end a host write of `v` to number `n` in a fault. -/
def writeFaultCause (cfg : Config) (s : State) (n v : Nat) : Prop :=
  unmappedNumber n                                                             -- 1
  ∨ n = 0x001 ∨ n = 0x002 ∨ n = 0x010 ∨ 0x100 ≤ n                              -- 2
  ∨ ((n = 0x000 ∨ n = 0x004 ∨ n = 0x007) ∧ 2 ^ 32 ≤ v)                         -- 4
  ∨ ((n = 0x005 ∨ n = 0x009 ∨ n = 0x00B ∨ n = 0x00D ∨ n = 0x00F) ∧ 2 ^ 8 ≤ v)  -- 4
  ∨ ((n = 0x008 ∨ n = 0x00A ∨ n = 0x00C ∨ n = 0x00E) ∧ v ≠ 0)                  -- 4, 5
  ∨ (n = 0x009 ∧ cfg.secretMax ≤ s.secret.length)                              -- 6
  ∨ (n = 0x00B ∧ cfg.keyMax ≤ s.key.length)                                    -- 6
  ∨ (n = 0x00D ∧ cfg.msgMax ≤ s.msg.length)                                    -- 6
  ∨ (n = 0x00F ∧ 20 ≤ s.digest.length)                                         -- 6

/-- The causes of 20_memory.md R55 that end a host read of number `n` in a fault. -/
def readFaultCause (s : State) (n : Nat) : Prop :=
  unmappedNumber n                                                             -- 1
  ∨ n = 0x000 ∨ n = 0x009 ∨ n = 0x00B ∨ n = 0x00D ∨ n = 0x00F                  -- 3
  ∨ (0x100 ≤ n ∧ n ≤ 0x1FF ∧ s.secret.length ≤ n - 0x100)                      -- 7
  ∨ (0x200 ≤ n ∧ n ≤ 0x2FF ∧ s.key.length ≤ n - 0x200)                         -- 7
  ∨ (0x300 ≤ n ∧ n ≤ 0x3FF ∧ s.msg.length ≤ n - 0x300)                         -- 7
  ∨ (0x400 ≤ n ∧ n ≤ 0x413 ∧ s.digest.length ≤ n - 0x400)                      -- 7
  ∨ (0x500 ≤ n ∧ n ≤ 0x509 ∧ s.code.length ≤ n - 0x500)                        -- 7
  ∨ (n = 0x003 ∧ s.timestamp = none)                                           -- 8
  ∨ (n = 0x006 ∧ s.counter = none)                                             -- 8
  ∨ (n = 0x007 ∧ s.trunc = none)                                               -- 8

end Sys2Proof.Machine
end

