-- ==== Sys2Proof/Certificates/Slice0/Obligations.lean ====
section
/-! DEFINITION. The statements for the provers. Each docstring names the rule of spec/ it formalises.
"This hardware" is `Config.totpcore`, the defaults of 00_scope.md R4; a statement "for every `cfg`" holds for every
parameter record. `.next t` says that the command or transaction completes in state `t`. -/

open Sys2Proof Sys2Proof.Machine

/-! ## Encoding -/

/-- 30_encoding.md R61: each command is selected by its word and by no other, all 32 bits counting. -/
def Obligations.CommandWordSelectsCommandExactly : Prop :=
  ∀ w : Word32,
    (decode w = .ok .b32dec ↔ w = 0x00000001) ∧ (decode w = .ok .tcnt ↔ w = 0x00000002) ∧
    (decode w = .ok .ctrenc ↔ w = 0x00000003) ∧ (decode w = .ok .hmac ↔ w = 0x00000004) ∧
    (decode w = .ok .trunc ↔ w = 0x00000005) ∧ (decode w = .ok .fmt ↔ w = 0x00000006) ∧
    (decode w = .ok .gen ↔ w = 0x00000007) ∧ (decode w = .ok .clr ↔ w = 0x00000008)

/-- 30_encoding.md R60, R61: decoding and encoding are inverse to each other, on all commands and on all words; the
well-formed words are exactly the encodings. -/
def Obligations.DecodeAndEncodeAreInverse : Prop :=
  (∀ i : Instr, i.wf = true → decode (encode i) = .ok i) ∧
  (∀ (w : Word32) (i : Instr), decode w = .ok i → encode i = w) ∧
  (∀ w : Word32, CommandWord.wf w = true ↔ ∃ i : Instr, encode i = w)

/-- 30_encoding.md R61: the words of the opcode table, written out, decode to their commands; two words that differ from
one in a single bit do not. -/
def Obligations.OpcodeTableWordsDecode : Prop :=
  decodeTableWord 32 0b00000000000000000000000000000001 = some .b32dec ∧
  decodeTableWord 32 0b00000000000000000000000000000100 = some .hmac ∧
  decodeTableWord 32 0b00000000000000000000000000000111 = some .gen ∧
  decodeTableWord 32 0b00000000000000000000000000001000 = some .clr ∧
  decodeTableWord 32 0b00000000000000000000000000001001 = none ∧
  decodeTableWord 32 0b10000000000000000000000000000111 = none

/-- 30_encoding.md R62: every other word, written to CMD, sets ERR to 7, changes nothing else and is answered `OK`. -/
def Obligations.IllegalWordSetsErrSevenOnly : Prop :=
  ∀ (s : State) (w : Word32), (w.toNat = 0 ∨ 9 ≤ w.toNat) →
    hostWrite s 0x000 (w.setWidth 64) = .next ({ s with err := 7 }, .ok)

/-- 20_memory.md R48: a step whose next transaction is the CMD write of a legal word is `exec` of the command on the
state at that moment, the transaction taken off the script and the response `OK` recorded (the script and the responses
are the model's own, log 1). -/
def Obligations.StepRunsTheDecodedCommand : Prop :=
  ∀ (s t : State) (w : Word32) (rest : List Txn) (i : Instr),
    s.script = .write 0x000 (w.setWidth 64) :: rest → decode w = .ok i →
    exec i { s with script := rest } = .next t →
    step s = .next { t with responses := .ok :: t.responses }

/-! ## Reset state -/

/-- 10_state.md R30 and 70_reset_and_hazards.md R161: after the `Reset` transaction, whatever the state before, and after CLR,
the eleven items hold the values the spec gives, VALID is 0 and every length register reads 0. -/
def Obligations.ResetAndClearLeaveTheResetState : Prop :=
  ∀ (s t : State), (t = hostReset s ∨ transact .reset s = .next t ∨ exec .clr s = .next t) →
    t.timestamp = none ∧ t.timestep = 30 ∧ t.digits = 6 ∧ t.counter = none ∧ t.trunc = none ∧ t.err = 0 ∧
    t.secret = [] ∧ t.key = [] ∧ t.msg = [] ∧ t.digest = [] ∧ t.code = [] ∧
    hostRead t 0x002 = .value 0 ∧ hostRead t 0x008 = .value 0 ∧ hostRead t 0x00A = .value 0 ∧
    hostRead t 0x00C = .value 0 ∧ hostRead t 0x00E = .value 0 ∧ hostRead t 0x010 = .value 0

/-- 45_generate_and_clear.md R132: CLR completes in every state with every item at its reset value and VALID 0; on a
state whose items are already those of reset it changes no item. -/
def Obligations.ClearCompletesInTheResetState : Prop :=
  decode 0x00000008 = .ok .clr ∧
  ∀ s : State, ∃ t, exec .clr s = .next t ∧ atReset t ∧ hostRead t 0x002 = .value 0 ∧
    (atReset s → unchangedBut [] s t)

/-- The reset state meets the invariant `State.wf`. -/
def Obligations.ResetStateIsWellFormed : Prop :=
  State.reset.wf Config.totpcore = true

/-! ## The Base32 decoder -/

/-- 30_encoding.md R67: `B32Class` on every 8-bit code, against the alphabet A to Z, 2 to 7 in value order. -/
def Obligations.Base32AlphabetIsRfc4648 : Prop :=
  let alphabet := "ABCDEFGHIJKLMNOPQRSTUVWXYZ234567".toList.map Char.toNat
  ∀ c : Byte,
    (b32Class c = .pad ↔ c.toNat = '='.toNat) ∧
    (∀ v : BitVec 5, b32Class c = .val v ↔
      alphabet[v.toNat]? = some c.toNat ∨ (v.toNat < 26 ∧ alphabet[v.toNat]? = some (c.toNat - 32) ∧ 32 ≤ c.toNat)) ∧
    (b32Class c = .invalid ↔ c.toNat ≠ '='.toNat ∧ c.toNat ∉ alphabet ∧
      ¬ ('a'.toNat ≤ c.toNat ∧ c.toNat ≤ 'z'.toNat))

/-- 40_base32_decoder.md R81: the decoder is its closed form. -/
def Obligations.Base32DecodeIsTheClosedForm : Prop :=
  ∀ s : List Byte,
    b32Decode s = if b32HasInvalid s then .error .invalidEncoding else .ok (b32Closed (b32Values s))

/-- 40_base32_decoder.md R82 (with the closed form of R81): B32DEC completes in every state; on success KEY is the
decoded SECRET and ERR is 0; with an invalid character KEY is empty and ERR is 1; nothing else changes. -/
def Obligations.B32decDecodesSecretIntoKey : Prop :=
  decode 0x00000001 = .ok .b32dec ∧
  ∀ s : State,
    (b32HasInvalid s.secret = false →
      exec .b32dec s = .next { s with key := b32Closed (b32Values s.secret), err := 0 }) ∧
    (b32HasInvalid s.secret = true → exec .b32dec s = .next { s with key := [], err := 1 })

/-- 40_base32_decoder.md R83: the output has `(5n) div 8` bytes for `n` valid characters, so it fits KEY whenever
`KEY_MAX` is legal; the empty string and a single valid character decode to the empty list. -/
def Obligations.Base32DecodeLength : Prop :=
  (∀ (s out : List Byte), b32Decode s = .ok out → out.length = 5 * (b32Values s).length / 8) ∧
  (∀ (cfg : Config) (s out : List Byte), cfg.legal = true → s.length ≤ cfg.secretMax → b32Decode s = .ok out →
    out.length ≤ cfg.keyMax) ∧
  b32Decode [] = .ok [] ∧
  (∀ (c : Byte) (v : BitVec 5), b32Class c = .val v → b32Decode [c] = .ok [])

/-- 40_base32_decoder.md R83: exchanging upper and lower case, and inserting `=` anywhere, change no result. -/
def Obligations.Base32DecodeIgnoresCaseAndPadding : Prop :=
  (∀ (s t : List Byte), List.Forall₂ (fun c d => d = c ∨ d = otherCase c) s t → b32Decode t = b32Decode s) ∧
  (∀ s u : List Byte, b32Decode (s ++ 0x3D :: u) = b32Decode (s ++ u))

/-- 40_base32_decoder.md R83: the decoding of a prefix is a prefix of the decoding. -/
def Obligations.Base32DecodePrefixMonotone : Prop :=
  ∀ s u o2 : List Byte, b32Decode (s ++ u) = .ok o2 → ∃ o1, b32Decode s = .ok o1 ∧ o1 <+: o2

/-- 40_base32_decoder.md R83, 95_test_vectors.md section 2.3: decoding an encoding gives the bytes back, padded or not,
in upper or in lower case. -/
def Obligations.Base32RoundTrip : Prop :=
  ∀ (b : List Byte) (padded : Bool),
    b32Decode (b32Encode b padded) = .ok b ∧ b32Decode ((b32Encode b padded).map otherCase) = .ok b

/-- 40_base32_decoder.md R80, R83: a 12-bit accumulator and a 4-bit counter compute the same function. -/
def Obligations.TwelveBitAccumulatorSuffices : Prop :=
  ∀ s : List Byte, b32Loop12 0 0 [] s = b32Decode s

/-! ## The time-step divider and the counter encoder -/

/-- 41_counter_encoder.md R90, R91: TCNT completes in every state, with its three outcomes. -/
def Obligations.TcntDividesTimestampByTimestep : Prop :=
  decode 0x00000002 = .ok .tcnt ∧
  ∀ s : State,
    (s.timestamp = none → exec .tcnt s = .next { s with counter := none, err := 6 }) ∧
    (∀ t, s.timestamp = some t → s.timestep = 0 → exec .tcnt s = .next { s with counter := none, err := 5 }) ∧
    (∀ t, s.timestamp = some t → s.timestep ≠ 0 → ∃ c : Word64,
      c.toNat = t.toNat / s.timestep.toNat ∧ exec .tcnt s = .next { s with counter := some c, err := 0 })

/-- 41_counter_encoder.md R92, R93 with the layout of 30_encoding.md R68: CTRENC for every `CTR_MODE`; on this hardware
it is the form with `FAULT32`. -/
def Obligations.CtrencEncodesCounterBigEndian : Prop :=
  decode 0x00000003 = .ok .ctrenc ∧
  (∀ s : State, exec .ctrenc s = .next (ctrenc Config.totpcore s)) ∧
  Config.totpcore.ctrMode = .fault32 ∧
  ∀ (cfg : Config) (s : State),
    (s.counter = none → ctrenc cfg s = { s with msg := [], err := 6 }) ∧
    (∀ c, s.counter = some c → cfg.ctrMode = .fault32 → 2 ^ 32 ≤ c.toNat →
      ctrenc cfg s = { s with msg := [], err := 2 }) ∧
    (∀ c, s.counter = some c → (cfg.ctrMode = .fault32 ∧ c.toNat < 2 ^ 32 ∨ cfg.ctrMode = .trunc32) →
      ctrenc cfg s = { s with
        msg := [0, 0, 0, 0, c.extractLsb' 24 8, c.extractLsb' 16 8, c.extractLsb' 8 8, c.extractLsb' 0 8], err := 0 }) ∧
    (∀ c, s.counter = some c → cfg.ctrMode = .wide64 →
      ctrenc cfg s = { s with
        msg := [c.extractLsb' 56 8, c.extractLsb' 48 8, c.extractLsb' 40 8, c.extractLsb' 32 8,
          c.extractLsb' 24 8, c.extractLsb' 16 8, c.extractLsb' 8 8, c.extractLsb' 0 8], err := 0 })

/-- 41_counter_encoder.md R92 and 70_reset_and_hazards.md R168: below 2^32 the modes agree; under `TRUNC32` a counter and
its remainder modulo 2^32 have the same block, without an error; under `WIDE64` different counters have different
blocks, and under `FAULT32` those that are encoded do. -/
def Obligations.CounterModesAgreeBelowTwoToThe32 : Prop :=
  (∀ (m m' : CtrMode) (c : Word64), c.toNat < 2 ^ 32 →
    counterEncode m c = counterEncode m' c ∧ ∃ block, counterEncode m c = .ok block) ∧
  (∀ c c' : Word64, c'.toNat = c.toNat % 2 ^ 32 →
    counterEncode .trunc32 c = counterEncode .trunc32 c' ∧ ∃ block, counterEncode .trunc32 c = .ok block) ∧
  (∀ (m : CtrMode) (c c' : Word64) (block : List Byte), m ≠ .trunc32 →
    counterEncode m c = .ok block → counterEncode m c' = .ok block → c = c')

/-- 00_scope.md R5: `BE_n(v)` has `n` bytes, element `k` the byte of weight `2^(8(n-1-k))`, so element 0 the most
significant; `FromBE` is its inverse, both ways; `ROTL_n` rotates. -/
def Obligations.BigEndianAndRotateNotation : Prop :=
  (∀ n v : Nat, (be n v).length = n) ∧
  (∀ n v k : Nat, k < n → (be n v)[k]? = some (BitVec.ofNat 8 (v / 2 ^ (8 * (n - 1 - k)) % 256))) ∧
  (∀ n v : Nat, v < 2 ^ (8 * n) → fromBE (be n v) = v) ∧
  (∀ l : List Byte, be l.length (fromBE l) = l) ∧
  (∀ (n : Nat) (v : Word32), 1 ≤ n → n ≤ 31 →
    (rotl n v).toNat = (v.toNat * 2 ^ n + v.toNat / 2 ^ (32 - n)) % 2 ^ 32)

/-! ## HMAC-SHA1 -/

/-- 42_hmac_sha1.md R103: the round functions and constants on their four ranges. -/
def Obligations.Sha1RoundFunctionsAndConstants : Prop :=
  sha1Init = ⟨0x67452301, 0xEFCDAB89, 0x98BADCFE, 0x10325476, 0xC3D2E1F0⟩ ∧
  ∀ (t : Nat) (b c d : Word32),
    (t ≤ 19 → sha1F t b c d = (b &&& c) ||| (~~~b &&& d) ∧ sha1K t = 0x5A827999) ∧
    (20 ≤ t → t ≤ 39 → sha1F t b c d = b ^^^ c ^^^ d ∧ sha1K t = 0x6ED9EBA1) ∧
    (40 ≤ t → t ≤ 59 → sha1F t b c d = (b &&& c) ||| (b &&& d) ||| (c &&& d) ∧ sha1K t = 0x8F1BBCDC) ∧
    (60 ≤ t → t ≤ 79 → sha1F t b c d = b ^^^ c ^^^ d ∧ sha1K t = 0xCA62C1D6)

/-- 42_hmac_sha1.md R102, R104, R105: the SHA-1 core meets its contract on every message of its domain (R101). -/
def Obligations.Sha1MeetsItsContract : Prop :=
  ∀ m : List Byte, m.length < 2 ^ 61 → Sha1Contract m (sha1 m) ∧ (sha1 m).length = 20

/-- 42_hmac_sha1.md R105: the two check values. -/
def Obligations.Sha1CheckValues : Prop :=
  sha1 [] = be 20 0xda39a3ee5e6b4b0d3255bfef95601890afd80709 ∧
  sha1 [0x61, 0x62, 0x63] = be 20 0xa9993e364706816aba3e25717850c26c9cd0d89d

/-- 42_hmac_sha1.md R100: the construction, with `k0` given element by element. -/
def Obligations.HmacConstruction : Prop :=
  ∀ (key msg : List Byte), ∃ k k0 ipad opad : List Byte,
    (64 < key.length → k = sha1 key) ∧ (key.length ≤ 64 → k = key) ∧
    k0.length = 64 ∧ (∀ (i : Nat) (h : i < k.length), k0[i]? = some k[i]) ∧
    (∀ i : Nat, k.length ≤ i → i < 64 → k0[i]? = some 0x00) ∧
    ipad.length = 64 ∧ opad.length = 64 ∧
    (∀ (i : Nat) (x : Byte), k0[i]? = some x → ipad[i]? = some (x ^^^ 0x36) ∧ opad[i]? = some (x ^^^ 0x5C)) ∧
    hmacSha1 key msg = sha1 (opad ++ sha1 (ipad ++ msg)) ∧ (hmacSha1 key msg).length = 20

/-- 42_hmac_sha1.md R100 and 95_test_vectors.md section 5: zero bytes appended to a key, up to 64 bytes, change no
digest; a longer key acts as its hash. -/
def Obligations.HmacKeyEquivalences : Prop :=
  (∀ (key msg : List Byte) (z : Nat), key.length + z ≤ 64 →
    hmacSha1 (key ++ List.replicate z 0x00) msg = hmacSha1 key msg) ∧
  (∀ key msg : List Byte, 64 < key.length → hmacSha1 key msg = hmacSha1 (sha1 key) msg)

/-- 42_hmac_sha1.md R106: HMAC completes in every state, empty KEY and MSG included; DIGEST holds 20 bytes, ERR is 0,
nothing else changes. -/
def Obligations.HmacHashesMsgUnderKey : Prop :=
  decode 0x00000004 = .ok .hmac ∧
  ∀ s : State, exec .hmac s = .next { s with digest := hmacSha1 s.key s.msg, err := 0 } ∧
    (hmacSha1 s.key s.msg).length = 20

/-! ## The truncator -/

/-- 43_dynamic_truncator.md R120, R121: TRUNC completes in every state; with 20 bytes in DIGEST the value is the
big-endian window at offset `d[19] & 15` with bit 31 cleared; otherwise TRUNC is `none` and ERR is 6. -/
def Obligations.TruncExtractsTheMaskedWindow : Prop :=
  decode 0x00000005 = .ok .trunc ∧
  ∀ s : State,
    (∀ last, s.digest.length = 20 → s.digest[19]? = some last → ∃ v : Word32,
      v.toNat = fromBE ((s.digest.drop (last.toNat % 16)).take 4) % 2 ^ 31 ∧
      exec .trunc s = .next { s with trunc := some v, err := 0 }) ∧
    (s.digest.length ≠ 20 → exec .trunc s = .next { s with trunc := none, err := 6 })

/-- 43_dynamic_truncator.md R120: the offset is the low nibble of byte 19, the result the big-endian window there with bit
31 cleared, below 2^31, its last index at most 18. Of two digests with the same offset the results are the same exactly
when the low seven bits of the byte at the offset and the next three bytes are: nothing else has an influence, and each
of those bits has one. -/
def Obligations.TruncateReadsTheMaskedWindowOnly : Prop :=
  (∀ (d : List Byte) (h : d.length = 20) (last : Byte), d[19]? = some last →
    truncOffset d h = last.toNat % 16 ∧ truncOffset d h + 3 ≤ 18 ∧
    (truncate d h).toNat = fromBE ((d.drop (truncOffset d h)).take 4) % 2 ^ 31 ∧ (truncate d h).toNat < 2 ^ 31) ∧
  (∀ (d d' : List Byte) (h : d.length = 20) (h' : d'.length = 20), truncOffset d h = truncOffset d' h' →
    (truncate d h = truncate d' h' ↔
      (∀ x x', d[truncOffset d h]? = some x → d'[truncOffset d h]? = some x' → x.toNat % 128 = x'.toNat % 128) ∧
      (∀ k, 1 ≤ k → k ≤ 3 → d[truncOffset d h + k]? = d'[truncOffset d h + k]?)))

/-! ## The formatter -/

/-- 44_code_formatter.md R125, R126: FMT for every `DIGITS_MAX`; on this hardware it is the form with 10. -/
def Obligations.FmtFormatsTruncInDecimal : Prop :=
  decode 0x00000006 = .ok .fmt ∧
  (∀ s : State, exec .fmt s = .next (fmt Config.totpcore s)) ∧
  Config.totpcore.digitsMax = 10 ∧
  ∀ (cfg : Config) (s : State),
    (s.trunc = none → fmt cfg s = { s with code := [], err := 6 }) ∧
    (∀ v, s.trunc = some v → (s.digits.toNat = 0 ∨ cfg.digitsMax < s.digits.toNat) →
      fmt cfg s = { s with code := [], err := 3 }) ∧
    (∀ v, s.trunc = some v → 1 ≤ s.digits.toNat → s.digits.toNat ≤ cfg.digitsMax → ∃ code : List Byte,
      code.length = s.digits.toNat ∧
      (∀ j, j < s.digits.toNat → code[j]? = some (BitVec.ofNat 8
        (0x30 + v.toNat % 10 ^ s.digits.toNat / 10 ^ (s.digits.toNat - 1 - j) % 10))) ∧
      fmt cfg s = { s with code := code, err := 0 })

/-- 44_code_formatter.md R127: the code depends on the value modulo `10^n` only and read as decimal is that remainder; a
shorter code is the tail of a longer one; the ten-digit code of a 31-bit value begins with 0, 1 or 2. -/
def Obligations.FormatArithmeticLaws : Prop :=
  ∀ (digitsMax : Nat) (v : Word32) (n : Byte) (code : List Byte), format digitsMax v n = .ok code →
    (∀ v' : Word32, v'.toNat % 10 ^ n.toNat = v.toNat % 10 ^ n.toNat → format digitsMax v' n = .ok code) ∧
    decimalValue code = v.toNat % 10 ^ n.toNat ∧
    (∀ (n1 : Byte) (code1 : List Byte), n1.toNat < n.toNat → format digitsMax v n1 = .ok code1 →
      code1 = code.drop (n.toNat - n1.toNat)) ∧
    (n.toNat = 10 → v.toNat < 2 ^ 31 → ∃ c, code[0]? = some c ∧ 0x30 ≤ c.toNat ∧ c.toNat ≤ 0x32)

/-! ## The pipeline -/

/-- 45_generate_and_clear.md R130, R131: GEN for every parameter record, its six errors in their order and its success
(the key by the closed form of 40_base32_decoder.md R81); on this hardware it is the form with the defaults of R4. -/
def Obligations.GenRunsThePipeline : Prop :=
  decode 0x00000007 = .ok .gen ∧
  (∀ s : State, exec .gen s = .next (gen Config.totpcore s)) ∧
  ∀ (cfg : Config) (s : State),
    let failed (e : Byte) : State :=
      { s with counter := none, key := [], msg := [], digest := [], trunc := none, code := [], err := e }
    let key := b32Closed (b32Values s.secret)
    (s.timestamp = none → gen cfg s = failed 6) ∧
    ∀ t, s.timestamp = some t →
      (s.timestep = 0 → gen cfg s = failed 5) ∧
      (s.timestep ≠ 0 → b32HasInvalid s.secret = true → gen cfg s = failed 1) ∧
      (s.timestep ≠ 0 → b32HasInvalid s.secret = false → key = [] → gen cfg s = failed 4) ∧
      (s.timestep ≠ 0 → b32HasInvalid s.secret = false → key ≠ [] →
        cfg.ctrMode = .fault32 → 2 ^ 32 ≤ t.toNat / s.timestep.toNat → gen cfg s = failed 2) ∧
      (s.timestep ≠ 0 → b32HasInvalid s.secret = false → key ≠ [] →
        (cfg.ctrMode = .fault32 → t.toNat / s.timestep.toNat < 2 ^ 32) →
        (s.digits.toNat = 0 ∨ cfg.digitsMax < s.digits.toNat) → gen cfg s = failed 3) ∧
      (s.timestep ≠ 0 → b32HasInvalid s.secret = false → key ≠ [] →
        (cfg.ctrMode = .fault32 → t.toNat / s.timestep.toNat < 2 ^ 32) →
        1 ≤ s.digits.toNat → s.digits.toNat ≤ cfg.digitsMax →
        ∃ (c : Word64) (block : List Byte) (v : Word32) (code : List Byte),
          c.toNat = t.toNat / s.timestep.toNat ∧ counterEncode cfg.ctrMode c = .ok block ∧
          v = truncate (hmacSha1 key block) (hmacSha1_length key block) ∧
          format cfg.digitsMax v s.digits = .ok code ∧
          gen cfg s = { s with counter := some c, key := key, msg := block, digest := hmacSha1 key block,
                               trunc := some v, code := code, err := 0 })

/-- 45_generate_and_clear.md R130: the success result's sizes, for every parameter record. -/
def Obligations.GenerateSuccessShape : Prop :=
  ∀ (cfg : Config) (secret : List Byte) (t : Word64) (step : Word32) (n : Byte) (g : Generated),
    generate cfg secret t step n = .ok g →
    1 ≤ g.key.length ∧ g.block.length = 8 ∧ g.digest.length = 20 ∧ g.value.toNat < 2 ^ 31 ∧
    g.code.length = n.toNat ∧ 1 ≤ n.toNat ∧ n.toNat ≤ cfg.digitsMax ∧ g.code.all isDigitChar = true

/-- 45_generate_and_clear.md R134: when GEN succeeds, TCNT, B32DEC, CTRENC, HMAC, TRUNC, FMT issued from the same state
all succeed and end in the same state; and there is a state in which GEN fails (`EmptySecret`) and all six succeed. -/
def Obligations.GenEqualsTheUnitCommands : Prop :=
  (∀ s g : State, exec .gen s = .next g → g.err = 0 →
    ∃ s1 s2 s3 s4 s5 : State,
      exec .tcnt s = .next s1 ∧ exec .b32dec s1 = .next s2 ∧ exec .ctrenc s2 = .next s3 ∧
      exec .hmac s3 = .next s4 ∧ exec .trunc s4 = .next s5 ∧ exec .fmt s5 = .next g ∧
      s1.err = 0 ∧ s2.err = 0 ∧ s3.err = 0 ∧ s4.err = 0 ∧ s5.err = 0) ∧
  (∃ s s1 s2 s3 s4 s5 s6 g : State,
      exec .gen s = .next g ∧ g.err = 4 ∧
      exec .tcnt s = .next s1 ∧ exec .b32dec s1 = .next s2 ∧ exec .ctrenc s2 = .next s3 ∧
      exec .hmac s3 = .next s4 ∧ exec .trunc s4 = .next s5 ∧ exec .fmt s5 = .next s6 ∧
      s1.err = 0 ∧ s2.err = 0 ∧ s3.err = 0 ∧ s4.err = 0 ∧ s5.err = 0 ∧ s6.err = 0)

/-- 45_generate_and_clear.md R135: two timestamps in the same time step give the same COUNTER, KEY, MSG, DIGEST, TRUNC,
CODE and ERR; when GEN succeeds at two timestamps in different steps, COUNTER and MSG differ. -/
def Obligations.GenDependsOnTheTimeStepOnly : Prop :=
  ∀ (s g1 g2 : State) (t1 t2 : Word64),
    exec .gen { s with timestamp := some t1 } = .next g1 → exec .gen { s with timestamp := some t2 } = .next g2 →
    (t1.toNat / s.timestep.toNat = t2.toNat / s.timestep.toNat →
      agreeOn [.counter, .key, .msg, .digest, .trunc, .code, .err] g1 g2) ∧
    (t1.toNat / s.timestep.toNat ≠ t2.toNat / s.timestep.toNat → g1.err = 0 → g2.err = 0 →
      g1.counter ≠ g2.counter ∧ g1.msg ≠ g2.msg)

/-! ## All commands -/

/-- 30_encoding.md R63: every command completes in every state; it changes no item outside its column "writes" and what
it leaves in those depends on its column "reads" alone. This is the frame of all eight commands. -/
def Obligations.CommandsTouchOnlyTheirColumns : Prop :=
  (∀ (i : Instr) (s : State), ∃ t, exec i s = .next t ∧ unchangedBut (writes i) s t) ∧
  (∀ (i : Instr) (s s' t t' : State), agreeOn (reads i) s s' →
    exec i s = .next t → exec i s' = .next t' → agreeOn (writes i) t t')

/-- The model's choice (logs 1 and 9), no rule of the spec: the host's script and responses are no state of the block, so
no command, no illegal word, no write and no reset changes them; only the step that issues a transaction does. -/
def Obligations.TheBlockLeavesTheHostAlone : Prop :=
  (∀ (i : Instr) (s t : State), exec i s = .next t → hostUnchanged s t) ∧
  (∀ (s t : State) (w : Word32), runWord w s = .next t → hostUnchanged s t) ∧
  (∀ (s t : State) (a : RegNum) (v : Word64) (r : Resp), hostWrite s a v = .next (t, r) → hostUnchanged s t) ∧
  (∀ s : State, hostUnchanged s (hostReset s))

/-- 60_exceptions.md R141, R144: the code every command leaves in ERR, with its exact causes in their order of
priority, for every parameter record; 7 for an illegal word; and before all of them the access fault of a CMD write
out of range, which leaves ERR alone. -/
def Obligations.ErrorCodesAndPriorities : Prop :=
  (∀ (cfg : Config) (s : State),
    (b32dec s).err = (if b32HasInvalid s.secret then 1 else 0) ∧
    (tcnt s).err = (if s.timestamp = none then 6 else if s.timestep = 0 then 5 else 0) ∧
    (ctrenc cfg s).err = (match s.counter with
      | none   => 6
      | some c => if cfg.ctrMode = .fault32 ∧ 2 ^ 32 ≤ c.toNat then 2 else 0) ∧
    (hmac s).err = 0 ∧
    (trunc s).err = (if s.digest.length = 20 then 0 else 6) ∧
    (fmt cfg s).err = (if s.trunc = none then 6
      else if s.digits.toNat = 0 ∨ cfg.digitsMax < s.digits.toNat then 3 else 0) ∧
    (gen cfg s).err = (match s.timestamp with
      | none   => 6
      | some t =>
        if s.timestep = 0 then 5
        else if b32HasInvalid s.secret then 1
        else if (b32Values s.secret).length ≤ 1 then 4
        else if cfg.ctrMode = .fault32 ∧ 2 ^ 32 ≤ t.toNat / s.timestep.toNat then 2
        else if s.digits.toNat = 0 ∨ cfg.digitsMax < s.digits.toNat then 3 else 0) ∧
    (clr s).err = 0) ∧
  (∀ s : State,
    exec .b32dec s = .next (b32dec s) ∧ exec .tcnt s = .next (tcnt s) ∧
    exec .ctrenc s = .next (ctrenc Config.totpcore s) ∧ exec .hmac s = .next (hmac s) ∧
    exec .trunc s = .next (trunc s) ∧ exec .fmt s = .next (fmt Config.totpcore s) ∧
    exec .gen s = .next (gen Config.totpcore s) ∧ exec .clr s = .next (clr s)) ∧
  (∀ (s : State) (w : Word32), (∀ i, decode w ≠ .ok i) → ∃ t, runWord w s = .next t ∧ t.err = 7) ∧
  (∀ (s : State) (v : Word64), 2 ^ 32 ≤ v.toNat → hostWrite s 0x000 v = .next (s, .fault))

/-- 60_exceptions.md R142: the effect of a command error. A command that ends with ERR not 0 has cleared its own
destinations and left the code of an error in ERR, and nothing else changed; an illegal word changes ERR alone. -/
def Obligations.CommandErrorClearsDestinations : Prop :=
  (∀ (i : Instr) (s t : State), exec i s = .next t → t.err ≠ 0 →
    (∃ e : CmdError, e ≠ .illegalCommand ∧ t.err = e.code) ∧
    unchangedBut (.err :: (dests i).map Dest.item) s t ∧
    (∀ d ∈ dests i, t.item d.item = .bytes [] ∨ t.item d.item = .optional none)) ∧
  dests .b32dec = [.key] ∧ dests .tcnt = [.counter] ∧ dests .ctrenc = [.msg] ∧ dests .trunc = [.trunc] ∧
  dests .fmt = [.code] ∧ dests .gen = [.counter, .key, .msg, .digest, .trunc, .code] ∧
  (∀ (s : State) (w : Word32), (∀ i, decode w ≠ .ok i) →
    ∃ t, runWord w s = .next t ∧ t.err = 7 ∧ unchangedBut [.err] s t)

/-- 00_scope.md R9, 70_reset_and_hazards.md R164: a command that reports an error leaves CODE as it was, or, if it is FMT
or GEN, empty; a successful FMT or GEN leaves exactly DIGITS decimal characters. -/
def Obligations.NoCodeAfterAnError : Prop :=
  ∀ (i : Instr) (s t : State), exec i s = .next t →
    (t.err ≠ 0 → (i = .fmt ∨ i = .gen → t.code = []) ∧ (i ≠ .fmt → i ≠ .gen → t.code = s.code)) ∧
    (t.err = 0 → i = .fmt ∨ i = .gen →
      t.code.length = t.digits.toNat ∧ t.code ≠ [] ∧ t.code.all isDigitChar = true)

/-! ## The host port -/

/-- 20_memory.md R57: the numbers and widths of the map; a mapped number names one register, every other number none. -/
def Obligations.RegisterMapNumbersAreUnique : Prop :=
  (∀ (a : RegNum) (r : Reg), regOf a = some r ↔ (r.mapped = true ∧ r.number = a)) ∧
  (∀ a : RegNum, regOf a = none ↔ unmappedNumber a.toNat) ∧
  [Reg.cmd, .err, .valid, .timestamp, .timestep, .digits, .counter, .trunc, .len .secret, .push .secret, .len .key,
    .push .key, .len .msg, .push .msg, .len .digest, .push .digest, .len .code].map (fun r => (r.number.toNat, r.width)) =
    [(0x000, 32), (0x001, 8), (0x002, 3), (0x003, 64), (0x004, 32), (0x005, 8), (0x006, 64), (0x007, 32), (0x008, 16),
      (0x009, 8), (0x00A, 16), (0x00B, 8), (0x00C, 16), (0x00D, 8), (0x00E, 16), (0x00F, 8), (0x010, 16)] ∧
  (∀ (b : Buf) (i : Nat), (Reg.data b i).mapped = true →
    (Reg.data b i).width = 8 ∧ (Reg.data b i).number.toNat = (match b with
      | .secret => 0x100
      | .key    => 0x200
      | .msg    => 0x300
      | .digest => 0x400
      | .code   => 0x500) + i)

/-- 20_memory.md R43: data out of range for the register, whichever register of the map it is, faults and nothing changes
(TIMESTAMP and COUNTER are 64 bits wide: no data is out of their range). -/
def Obligations.OutOfRangeWriteFaults : Prop :=
  ∀ (s : State) (a : RegNum) (v : Word64) (w : Nat),
    ((a.toNat, w) ∈ [(0x000, 32), (0x001, 8), (0x002, 3), (0x004, 32), (0x005, 8), (0x007, 32), (0x008, 16), (0x009, 8),
        (0x00A, 16), (0x00B, 8), (0x00C, 16), (0x00D, 8), (0x00E, 16), (0x00F, 8), (0x010, 16)] ∨
      (w = 8 ∧ 0x100 ≤ a.toNat ∧ ¬ unmappedNumber a.toNat)) →
    2 ^ w ≤ v.toNat → hostWrite s a v = .next (s, .fault)

/-- 20_memory.md R55, R42, R41: a host write faults exactly for the listed causes and then changes nothing, otherwise it
is answered `OK`; a host read faults exactly for the listed causes, otherwise it is answered `OK` with a value. -/
def Obligations.AccessFaultCausesAreComplete : Prop :=
  (∀ (s : State) (a : RegNum) (v : Word64),
    (writeFaultCause Config.totpcore s a.toNat v.toNat → hostWrite s a v = .next (s, .fault)) ∧
    (¬ writeFaultCause Config.totpcore s a.toNat v.toNat → ∃ t, hostWrite s a v = .next (t, .ok))) ∧
  (∀ (s : State) (a : RegNum),
    (readFaultCause s a.toNat → hostRead s a = .fault) ∧
    (¬ readFaultCause s a.toNat → ∃ v, hostRead s a = .value v))

/-- 20_memory.md R44: the scalar registers; no write but that of a command sets an optional scalar back to `none`. -/
def Obligations.ScalarRegisterAccess : Prop :=
  (∀ (s : State) (v : Word64),
    hostWrite s 0x003 v = .next ({ s with timestamp := some v }, .ok) ∧
    hostWrite s 0x006 v = .next ({ s with counter := some v }, .ok)) ∧
  (∀ (s : State) (v : Word32),
    hostWrite s 0x004 (v.setWidth 64) = .next ({ s with timestep := v }, .ok) ∧
    hostWrite s 0x007 (v.setWidth 64) = .next ({ s with trunc := some v }, .ok)) ∧
  (∀ (s : State) (v : Byte), hostWrite s 0x005 (v.setWidth 64) = .next ({ s with digits := v }, .ok)) ∧
  (∀ s : State,
    hostRead s 0x001 = .value (s.err.setWidth 64) ∧ hostRead s 0x002 = .value (s.valid.setWidth 64) ∧
    hostRead s 0x004 = .value (s.timestep.setWidth 64) ∧ hostRead s 0x005 = .value (s.digits.setWidth 64) ∧
    (s.timestamp = none → hostRead s 0x003 = .fault) ∧ (∀ v, s.timestamp = some v → hostRead s 0x003 = .value v) ∧
    (s.counter = none → hostRead s 0x006 = .fault) ∧ (∀ v, s.counter = some v → hostRead s 0x006 = .value v) ∧
    (s.trunc = none → hostRead s 0x007 = .fault) ∧
    (∀ v, s.trunc = some v → hostRead s 0x007 = .value (v.setWidth 64))) ∧
  (∀ (s t : State) (a : RegNum) (v : Word64) (r : Resp), a ≠ 0x000 → hostWrite s a v = .next (t, r) →
    (s.timestamp ≠ none → t.timestamp ≠ none) ∧ (s.counter ≠ none → t.counter ≠ none) ∧
    (s.trunc ≠ none → t.trunc ≠ none))

/-- 30_encoding.md R65, 10_state.md R23: the VALID register as a number. -/
def Obligations.ValidRegisterShowsTheFlags : Prop :=
  ∀ s : State, ∃ v : Word64, hostRead s 0x002 = .value v ∧
    v.toNat = (if s.timestamp = none then 0 else 1) + 2 * (if s.counter = none then 0 else 1)
      + 4 * (if s.trunc = none then 0 else 1)

/-- 20_memory.md R45, R46: length and push registers of the four loadable buffers, the length of CODE. The length read is
stated of well-formed states. -/
def Obligations.BufferLengthAndPushRegisters : Prop :=
  (∀ (s : State) (b : LoadBuf) (v : Word64),
    hostWrite s (Reg.len b.buf).number 0 = .next (s.setBuf b.buf [], .ok) ∧
    (v ≠ 0 → hostWrite s (Reg.len b.buf).number v = .next (s, .fault)) ∧
    hostWrite s (Reg.len .code).number v = .next (s, .fault)) ∧
  (∀ (s : State) (b : LoadBuf) (x : Byte) (v : Word64),
    ((s.buf b.buf).length < b.buf.capacity Config.totpcore →
      hostWrite s (Reg.push b).number (x.setWidth 64) = .next (s.setBuf b.buf (s.buf b.buf ++ [x]), .ok)) ∧
    ((s.buf b.buf).length = b.buf.capacity Config.totpcore →
      hostWrite s (Reg.push b).number (x.setWidth 64) = .next (s, .fault)) ∧
    (2 ^ 8 ≤ v.toNat → hostWrite s (Reg.push b).number v = .next (s, .fault)) ∧
    hostRead s (Reg.push b).number = .fault) ∧
  (∀ (s : State) (b : Buf), s.wf Config.totpcore = true →
    ∃ v : Word64, hostRead s (Reg.len b).number = .value v ∧ v.toNat = (s.buf b).length ∧
      v.toNat ≤ b.capacity Config.totpcore)

/-- 20_memory.md R47: data registers. A read answers the element when the index is below the buffer's length, and faults
otherwise; every write faults. -/
def Obligations.BufferDataRegisters : Prop :=
  ∀ (s : State) (b : Buf) (i : Nat) (v : Word64), i < b.window →
    hostWrite s (Reg.data b i).number v = .next (s, .fault) ∧
    (∀ x, (s.buf b)[i]? = some x → hostRead s (Reg.data b i).number = .value (x.setWidth 64)) ∧
    ((s.buf b).length ≤ i → hostRead s (Reg.data b i).number = .fault)

/-- 20_memory.md R48: the CMD register. A word in range runs to completion inside the write and is answered `OK` whatever
the command's outcome; out of range no command runs; a read faults. -/
def Obligations.CmdRegisterRunsTheCommand : Prop :=
  (∀ (s : State) (w : Word32), ∃ t, runWord w s = .next t ∧ hostWrite s 0x000 (w.setWidth 64) = .next (t, .ok)) ∧
  (∀ (s t : State) (w : Word32) (i : Instr), decode w = .ok i → exec i s = .next t → runWord w s = .next t) ∧
  (∀ (s : State) (v : Word64), 2 ^ 32 ≤ v.toNat → hostWrite s 0x000 v = .next (s, .fault)) ∧
  (∀ s : State, hostRead s 0x000 = .fault)

/-- 20_memory.md R41, R42, 60_exceptions.md R140, R143, 10_state.md R22, 70_reset_and_hazards.md R160: every step answers
a next state. A step that issues a write is `hostWrite`, its response recorded, `OK` or `FAULT`; a write to another
register than CMD and any faulting write leave ERR alone. A step that issues a read records `hostRead`, `OK` with a value
or `FAULT`, and changes no item. A step that issues `Reset` is `hostReset` and records no response. (The script and the
responses are the model's own, logs 1 and 9.) -/
def Obligations.EveryTransactionCompletes : Prop :=
  (∀ s : State, ∃ t, step s = .next t) ∧
  (∀ (s : State) (a : RegNum) (v : Word64) (rest : List Txn), s.script = .write a v :: rest →
    ∃ t r, hostWrite { s with script := rest } a v = .next (t, r) ∧
      step s = .next { t with responses := r :: t.responses } ∧ t.script = rest ∧ t.responses = s.responses ∧
      (r = .ok ∨ r = .fault ∧ ∀ x, t.item x = s.item x) ∧ (a ≠ 0x000 → t.err = s.err)) ∧
  (∀ (s : State) (a : RegNum) (rest : List Txn), s.script = .read a :: rest →
    step s = .next { s with script := rest, responses := hostRead { s with script := rest } a :: s.responses } ∧
      (hostRead { s with script := rest } a = .fault ∨ ∃ v, hostRead { s with script := rest } a = .value v)) ∧
  (∀ (s : State) (rest : List Txn), s.script = .reset :: rest →
    ∃ t, step s = .next t ∧ t = hostReset { s with script := rest } ∧ atReset t ∧ t.script = rest ∧
      t.responses = s.responses)

/-- 70_reset_and_hazards.md R163, 20_memory.md R44 to R46: an accepted write to a register other than CMD changes no item
but the one that register is for, one the host can write, and invalidates nothing downstream. -/
def Obligations.OperandWritesInvalidateNothing : Prop :=
  ∀ (s t : State) (a : RegNum) (v : Word64), hostWrite s a v = .next (t, .ok) → a ≠ 0x000 →
    ∃ r x, regOf a = some r ∧ r.item? = some x ∧
      x ∈ [Item.timestamp, .timestep, .digits, .counter, .trunc, .secret, .key, .msg, .digest] ∧
      unchangedBut [x] s t

/-- 20_memory.md R49: repeating an accepted scalar write, length write or CMD write changes nothing more; repeating a
push appends again; a read changes no item. -/
def Obligations.AllButPushesAreIdempotent : Prop :=
  (∀ (s t : State) (a : RegNum) (v : Word64), hostWrite s a v = .next (t, .ok) →
    a.toNat ∉ [0x009, 0x00B, 0x00D, 0x00F] → hostWrite t a v = .next (t, .ok)) ∧
  (∀ (s t : State) (b : LoadBuf) (v : Word64), hostWrite s (Reg.push b).number v = .next (t, .ok) →
    (t.buf b.buf).length = (s.buf b.buf).length + 1) ∧
  (∀ (s : State) (a : RegNum), ∃ t, transact (.read a) s = .next t ∧ ∀ x, t.item x = s.item x)

/-! ## Whole-machine results -/

/-- The invariant of the register file (10_state.md R21, R24, 30_encoding.md R64): every step of this hardware keeps every
buffer within its capacity, ERR at a code of R64 and CODE decimal, from every state that meets them. -/
def Obligations.EveryStepKeepsTheStateWellFormed : Prop :=
  ∀ s t : State, s.wf Config.totpcore = true → step s = .next t → t.wf Config.totpcore = true

/-- The same for every legal parameter record of 00_scope.md R4: every command and every accepted write keeps the
invariant. -/
def Obligations.LegalParametersKeepTheStateWellFormed : Prop :=
  ∀ (cfg : Config) (s : State), cfg.legal = true → s.wf cfg = true →
    (b32dec s).wf cfg = true ∧ (tcnt s).wf cfg = true ∧ (ctrenc cfg s).wf cfg = true ∧ (hmac s).wf cfg = true ∧
    (trunc s).wf cfg = true ∧ (fmt cfg s).wf cfg = true ∧ (gen cfg s).wf cfg = true ∧ (clr s).wf cfg = true ∧
    (illegalCommand s).wf cfg = true ∧
    (∀ (a : RegNum) (v : Word64) (t : State), acceptWrite cfg s a v = .ok (.stored t) → t.wf cfg = true)

/-- 20_memory.md R52: running the machine for the length of a script is the fold of the transactions over the script, in
order (the script and the responses are the model's own, log 1). -/
def Obligations.RunningAScriptIsTheFold : Prop :=
  ∀ (xs rest : List Txn) (s : State),
    Sys2Proof.core.run xs.length ({ s with script := xs ++ rest } : State) =
      runScript xs { s with script := rest }

/-- 30_encoding.md R71 (`LDSTR`, `LDHEX`) with 70_reset_and_hazards.md R165: loading a list that fits leaves the buffer
holding exactly it, whatever it held before, every response `OK` (recorded in the model's responses, log 1) and nothing
else changed. -/
def Obligations.LoadingABufferReplacesIt : Prop :=
  ∀ (s : State) (b : LoadBuf) (l : List Byte), l.length ≤ b.buf.capacity Config.totpcore →
    runScript (load b l) s =
      .next { s.setBuf b.buf l with responses := List.replicate (l.length + 1) .ok ++ s.responses }

/-- 30_encoding.md R71 (`RDBUF`): in a well-formed state, reading the length and then that many data registers answers
the length and the elements in order, and changes no item (the model's `rdbuf` takes the length, log 10; the responses
are the model's own, log 1). -/
def Obligations.ReadingABufferAnswersItsContent : Prop :=
  ∀ (s : State) (b : Buf), s.wf Config.totpcore = true →
    runScript (rdbuf b (s.buf b).length) s = .next { s with
      responses := ((s.buf b).map fun x => Resp.value (x.setWidth 64)).reverse ++
        .value (BitVec.ofNat 64 (s.buf b).length) :: s.responses }

/-- 30_encoding.md R71 (`TOTP`), 70_reset_and_hazards.md R162: from any state the host's sequence is `Generate` on the
operands: every write is answered `OK` and the items end as GEN leaves them on those operands, ERR read last (the
responses are the model's own, log 1; the sequence ends at `RD ERR`, log 10). -/
def Obligations.TotpSequenceIsGenOnItsOperands : Prop :=
  ∀ (s : State) (secret : List Byte) (t : Word64) (step : Option Word32) (digits : Option Byte),
    secret.length ≤ 256 → ∃ u g : State,
      exec .gen { s with secret := secret, timestamp := some t, timestep := step.getD s.timestep,
                         digits := digits.getD s.digits } = .next g ∧
      runScript (totp secret t step digits) s = .next u ∧ (∀ x, u.item x = g.item x) ∧
      u.responses = .value (g.err.setWidth 64) ::
        (List.replicate ((totp secret t step digits).length - 1) .ok ++ s.responses)

/-- The model's choice (log 11), no rule of the spec: 42_hmac_sha1.md R101 gives `SHA1` no message of 2^61 bytes or more.
On those the model follows R102 to R105 too, with the bit length of R102 taken modulo 2^64. -/
def Obligations.Sha1BeyondItsDomainWrapsTheLength : Prop :=
  ∀ m : List Byte, 2 ^ 61 ≤ m.length →
    Sha1Contract m (sha1 m) ∧ (sha1 m).length = 20 ∧ be 8 (8 * m.length) = be 8 (8 * m.length % 2 ^ 64)
end

