-- ==== Sys2Proof/Laws/Bytes.lean ====
section
/-! SUPPORT. Laws of the byte-list notation: `be` and `fromBE` are inverse to each other, and cutting into groups. -/

namespace Sys2Proof.Machine

open Sys2Proof

theorem be_succ (n v : Nat) : be (n + 1) v = BitVec.ofNat 8 (v >>> (8 * n)) :: be n v := by
  simp [be, List.range_succ_eq_map]
  intro k hk
  rw [show n - (k + 1) = n - 1 - k by omega]

/-- Element `k` of a big-endian list is the byte of weight `2^(8(n-1-k))` (00_scope.md R5). -/
theorem be_getElem? (n v k : Nat) (h : k < n) :
    (be n v)[k]? = some (BitVec.ofNat 8 (v / 2 ^ (8 * (n - 1 - k)) % 256)) := by
  simp only [be, List.getElem?_map, List.getElem?_range h, Option.map_some, Nat.shiftRight_eq_div_pow, Option.some.injEq]
  exact BitVec.eq_of_toNat_eq (by simp only [BitVec.toNat_ofNat]; omega)

/-- A value counts modulo `2^(8n)` only. -/
theorem be_mod (n v : Nat) : be n v = be n (v % 2 ^ (8 * n)) := by
  refine List.ext_getElem? fun k => ?_
  by_cases h : k < n
  · rw [be_getElem? _ _ _ h, be_getElem? _ _ _ h]
    rw [show 2 ^ (8 * n) = 2 ^ (8 * (n - 1 - k)) * (256 * 2 ^ (8 * k)) by
      rw [show 256 = 2 ^ 8 by rfl, ← Nat.pow_add, ← Nat.pow_add]; congr 1; omega,
      Nat.mod_mul_right_div_self, Nat.mod_mul_right_mod]
  · rw [List.getElem?_eq_none (by rw [be_length]; omega), List.getElem?_eq_none (by rw [be_length]; omega)]

theorem foldl_base (f : Byte → Nat) (k : Nat) (l : List Byte) (a : Nat) :
    l.foldl (fun acc b => acc * k + f b) a = a * k ^ l.length + l.foldl (fun acc b => acc * k + f b) 0 := by
  induction l generalizing a with
  | nil => simp
  | cons x l ih =>
    rw [List.foldl_cons, ih, List.foldl_cons, ih (0 * k + f x), List.length_cons, Nat.pow_succ]
    ring

theorem fromBE_cons (x : Byte) (l : List Byte) : fromBE (x :: l) = x.toNat * 256 ^ l.length + fromBE l := by
  have h := foldl_base BitVec.toNat 256 l (0 * 256 + x.toNat)
  simpa [fromBE] using h

theorem fromBE_lt (l : List Byte) : fromBE l < 256 ^ l.length := by
  induction l with
  | nil => simp [fromBE]
  | cons x l ih =>
    have hx : x.toNat ≤ 255 := by have := x.isLt; omega
    rw [fromBE_cons, List.length_cons, Nat.pow_succ]
    nlinarith [Nat.pow_pos (n := l.length) (show 0 < 256 by omega)]

theorem fromBE_be_mod (n v : Nat) : fromBE (be n v) = v % 2 ^ (8 * n) := by
  induction n with
  | zero => simp [be, fromBE, Nat.mod_one]
  | succ n ih =>
    rw [be_succ, fromBE_cons, ih, be_length, BitVec.toNat_ofNat, Nat.shiftRight_eq_div_pow,
      show (256 : Nat) ^ n = 2 ^ (8 * n) by rw [Nat.pow_mul],
      show 2 ^ (8 * (n + 1)) = 2 ^ (8 * n) * 2 ^ 8 by rw [← Nat.pow_add]; ring_nf, Nat.mod_mul]
    ring

/-- `FromBE` undoes `BE_n` on every value that fits (00_scope.md R5). -/
theorem fromBE_be (n v : Nat) (h : v < 2 ^ (8 * n)) : fromBE (be n v) = v := by
  rw [fromBE_be_mod, Nat.mod_eq_of_lt h]

theorem be_add_mul (n a v : Nat) : be n (a * 256 ^ n + v) = be n v := by
  induction n generalizing a with
  | zero => simp [be]
  | succ n ih =>
    rw [be_succ, be_succ, show a * 256 ^ (n + 1) + v = a * 256 * 256 ^ n + v by rw [Nat.pow_succ]; ring, ih]
    congr 1
    apply BitVec.eq_of_toNat_eq
    rw [BitVec.toNat_ofNat, BitVec.toNat_ofNat, Nat.shiftRight_eq_div_pow, Nat.shiftRight_eq_div_pow,
      show (256 : Nat) ^ n = 2 ^ (8 * n) by rw [Nat.pow_mul], Nat.add_comm,
      Nat.add_mul_div_right _ _ (Nat.two_pow_pos _)]
    omega

/-- `BE_n` undoes `FromBE` (00_scope.md R5). -/
theorem be_fromBE (l : List Byte) : be l.length (fromBE l) = l := by
  induction l with
  | nil => simp [be]
  | cons x l ih =>
    rw [List.length_cons, be_succ, fromBE_cons, be_add_mul, ih]
    congr 1
    apply BitVec.eq_of_toNat_eq
    rw [BitVec.toNat_ofNat, Nat.shiftRight_eq_div_pow, show 2 ^ (8 * l.length) = 256 ^ l.length by rw [Nat.pow_mul],
      Nat.add_comm, Nat.add_mul_div_right _ _ (by positivity), Nat.div_eq_of_lt (fromBE_lt l)]
    have := x.isLt
    omega

theorem groupsOf_length {α : Type} (n k : Nat) (l : List α) : (groupsOf n k l).length = k := by
  induction k generalizing l with
  | zero => rfl
  | succ k ih => simp [groupsOf, ih]

/-- Group `j` is the `n` elements from `n * j` on. -/
theorem groupsOf_getElem? {α : Type} (n k : Nat) (l : List α) (j : Nat) (h : j < k) :
    (groupsOf n k l)[j]? = some ((l.drop (n * j)).take n) := by
  induction k generalizing l j with
  | zero => omega
  | succ k ih =>
    cases j with
    | zero => simp [groupsOf]
    | succ j =>
      simp only [groupsOf, List.getElem?_cons_succ]
      rw [ih _ _ (by omega), List.drop_drop, show n + n * j = n * (j + 1) by ring]

end Sys2Proof.Machine
end

