-- ==== Sys2Proof/Laws/Base32.lean ====
section
/-! SUPPORT. Laws of the Base32 decoder: what the loop computes from any accumulator, and the helper's bits. -/

namespace Sys2Proof.Machine

open Sys2Proof

/-- A fact about every 8-bit code is a fact about 256 numbers. -/
theorem byte_forall {P : Byte → Prop} (h : ∀ n, n < 256 → P (BitVec.ofNat 8 n)) (c : Byte) : P c := by
  have := h c.toNat c.isLt
  rwa [BitVec.ofNat_toNat, BitVec.setWidth_eq] at this

/-- The whole bytes at the front of the `total` bits of `v`, the incomplete last byte dropped. -/
def wholeBytes (total v : Nat) : List Byte :=
  (List.range (total / 8)).map fun j => BitVec.ofNat 8 (v / 2 ^ (total - 8 * (j + 1)) % 256)

theorem wholeBytes_small (total v : Nat) (h : total < 8) : wholeBytes total v = [] := by
  simp [wholeBytes, Nat.div_eq_of_lt h]

theorem wholeBytes_step (total v : Nat) (h : 8 ≤ total) :
    wholeBytes total v = BitVec.ofNat 8 (v / 2 ^ (total - 8) % 256) :: wholeBytes (total - 8) (v % 2 ^ (total - 8)) := by
  obtain ⟨t, rfl⟩ : ∃ t, total = t + 8 := ⟨total - 8, by omega⟩
  have hd : (t + 8) / 8 = t / 8 + 1 := by omega
  simp only [wholeBytes, hd, List.range_succ_eq_map, List.map_cons, List.map_map, Nat.zero_add, Nat.mul_one,
    Nat.add_sub_cancel, List.cons.injEq, true_and]
  apply List.map_congr_left
  intro j hj
  have hj' : 8 * (j + 1) ≤ t := by have := List.mem_range.mp hj; omega
  simp only [Function.comp]
  congr 1
  have he : t + 8 - 8 * (j.succ + 1) = t - 8 * (j + 1) := by omega
  rw [he]
  generalize hp : t - 8 * (j + 1) = p
  have ht : t = p + 8 * (j + 1) := by omega
  have h2 : (2 : Nat) ^ t = 2 ^ p * (2 ^ 8 * 2 ^ (8 * j)) := by
    rw [← Nat.pow_add, ← Nat.pow_add, ht]; congr 1; ring
  rw [h2, Nat.mod_mul_right_div_self, show (256 : Nat) = 2 ^ 8 by rfl, Nat.mod_mul_right_mod]

theorem b32Values_cons (c : Byte) (cs : List Byte) :
    b32Values (c :: cs) = (match b32Class c with
      | .val v => v.toNat :: b32Values cs
      | _      => b32Values cs) := by
  simp only [b32Values, List.filterMap_cons]
  cases b32Class c <;> rfl

theorem b32Number_foldl (vs : List Nat) (a : Nat) :
    vs.foldl (fun acc v => acc * 32 + v) a = a * 32 ^ vs.length + b32Number vs := by
  induction vs generalizing a with
  | nil => simp [b32Number]
  | cons v vs ih =>
    have h : b32Number (v :: vs) = (0 * 32 + v) * 32 ^ vs.length + b32Number vs := ih (0 * 32 + v)
    rw [List.foldl_cons, ih, h, List.length_cons, Nat.pow_succ]
    ring

theorem b32Values_lt (s : List Byte) : ∀ v ∈ b32Values s, v < 32 := by
  intro v hv
  simp only [b32Values, List.mem_filterMap] at hv
  obtain ⟨c, -, hc⟩ := hv
  split at hc <;> simp at hc
  subst hc
  exact BitVec.isLt _

theorem b32Number_lt (vs : List Nat) (h : ∀ v ∈ vs, v < 32) : b32Number vs < 32 ^ vs.length := by
  induction vs with
  | nil => simp [b32Number]
  | cons v vs ih =>
    have h1 := ih fun w hw => h w (by simp [hw])
    have h2 : v ≤ 31 := by have := h v (by simp); omega
    have h3 := b32Number_foldl vs (0 * 32 + v)
    have h4 : b32Number (v :: vs) = v * 32 ^ vs.length + b32Number vs := by
      simpa [b32Number] using h3
    rw [h4, List.length_cons, Nat.pow_succ]
    nlinarith [Nat.pow_pos (n := vs.length) (show 0 < 32 by omega)]

theorem shiftLeft_or_eq (acc : Nat) (v : BitVec 5) : (acc <<< 5) ||| v.toNat = acc * 32 + v.toNat := by
  rw [Nat.shiftLeft_eq, Nat.mul_comm, show (2 : Nat) ^ 5 = 32 by rfl]
  have := Nat.two_pow_add_eq_or_of_lt (i := 5) v.isLt acc
  rw [show (2 : Nat) ^ 5 = 32 by rfl] at this
  rw [← this]

theorem and_mask_eq (a k : Nat) : a &&& (1 <<< k - 1) = a % 2 ^ k := by
  rw [Nat.one_shiftLeft, Nat.and_two_pow_sub_one_eq_mod]

/-- What the decoder's loop computes from any accumulator below `2^nbits` with `nbits < 8`: the bytes already emitted,
then the whole bytes of the remaining accumulator bits followed by the characters' values (40_base32_decoder.md R80,
R81). -/
theorem b32Loop_eq (s : List Byte) : ∀ (acc nbits : Nat) (out : List Byte), nbits < 8 → acc < 2 ^ nbits →
    b32Loop acc nbits out s = if b32HasInvalid s then .error .invalidEncoding
      else .ok (out ++ wholeBytes (nbits + 5 * (b32Values s).length)
        (acc * 32 ^ (b32Values s).length + b32Number (b32Values s))) := by
  induction s with
  | nil =>
    intro acc nbits out hn _
    simp [b32Loop, b32HasInvalid, b32Values, wholeBytes_small _ _ hn]
  | cons c cs ih =>
    intro acc nbits out hn ha
    rw [b32Loop, b32Values_cons]
    have hinv : b32HasInvalid (c :: cs) = (decide (b32Class c = .invalid) || b32HasInvalid cs) := by
      simp [b32HasInvalid]
    rw [hinv]
    cases hc : b32Class c with
    | pad => simpa using ih acc nbits out hn ha
    | invalid => simp
    | val v =>
      have hv := v.isLt
      have hV : b32Number (v.toNat :: b32Values cs) =
          v.toNat * 32 ^ (b32Values cs).length + b32Number (b32Values cs) := by
        have := b32Number_foldl (b32Values cs) (0 * 32 + v.toNat)
        simpa [b32Number] using this
      have ha1 : acc * 32 + v.toNat < 2 ^ (nbits + 5) := by
        rw [Nat.pow_add]; omega
      simp only [shiftLeft_or_eq, and_mask_eq, List.length_cons, hV]
      have hdec : decide (B32Class.val v = B32Class.invalid) = false := by simp
      rw [hdec, Bool.false_or]
      have hval : acc * 32 ^ ((b32Values cs).length + 1) +
          (v.toNat * 32 ^ (b32Values cs).length + b32Number (b32Values cs)) =
          (acc * 32 + v.toNat) * 32 ^ (b32Values cs).length + b32Number (b32Values cs) := by
        rw [Nat.pow_succ]; ring
      rw [hval]
      have hN := b32Number_lt _ (b32Values_lt cs)
      split
      · rename_i h8
        obtain ⟨r, hr⟩ : ∃ r, nbits + 5 = r + 8 := ⟨nbits - 3, by omega⟩
        have hr' : nbits + 5 - 8 = r := by omega
        rw [hr', ih _ _ _ (by omega) (Nat.mod_lt _ (Nat.two_pow_pos r))]
        split
        · rfl
        · congr 1
          have ht : nbits + 5 * ((b32Values cs).length + 1) = r + 5 * (b32Values cs).length + 8 := by omega
          rw [ht, wholeBytes_step (_ + 8) _ (by omega), Nat.add_sub_cancel]
          have hp : (2 : Nat) ^ (r + 5 * (b32Values cs).length) = 32 ^ (b32Values cs).length * 2 ^ r := by
            rw [Nat.pow_add, Nat.pow_mul, Nat.mul_comm]
          have hdiv : ((acc * 32 + v.toNat) * 32 ^ (b32Values cs).length + b32Number (b32Values cs)) /
              32 ^ (b32Values cs).length = acc * 32 + v.toNat := by
            rw [Nat.add_comm, Nat.add_mul_div_right _ _ (by positivity), Nat.div_eq_of_lt hN, Nat.zero_add]
          have hmod : ((acc * 32 + v.toNat) * 32 ^ (b32Values cs).length + b32Number (b32Values cs)) %
              32 ^ (b32Values cs).length = b32Number (b32Values cs) := by
            rw [Nat.add_comm, Nat.add_mul_mod_self_right, Nat.mod_eq_of_lt hN]
          rw [hp, ← Nat.div_div_eq_div_mul, hdiv, Nat.mod_mul, hdiv, hmod, List.append_assoc, List.singleton_append,
            Nat.shiftRight_eq_div_pow, show (0xFF : Nat) = 2 ^ 8 - 1 by rfl, Nat.and_two_pow_sub_one_eq_mod]
          congr 3
          ring
      · rename_i h8
        rw [ih _ _ _ (by omega) ha1]
        split
        · rfl
        · congr 3; omega

end Sys2Proof.Machine
end

