-- ==== Sys2Proof/Laws/Base32Encode.lean ====
section
/-! SUPPORT. Laws of the Base32 encoder helper (95_test_vectors.md section 2.3): its bits as numbers, its characters' classes. -/

namespace Sys2Proof.Machine

open Sys2Proof

/-- Changing a letter's case does not change its class (40_base32_decoder.md R83). -/
theorem b32Class_otherCase : ∀ c, b32Class (otherCase c) = b32Class c := by
  apply byte_forall
  decide +kernel

theorem b32Class_b32Char : ∀ g, g < 32 → b32Class (b32Char g) = .val (BitVec.ofNat 5 g) := by
  decide +kernel

theorem bitsValue_foldl (l : List Bool) (a : Nat) :
    l.foldl (fun acc b => 2 * acc + b.toNat) a = a * 2 ^ l.length + bitsValue l := by
  induction l generalizing a with
  | nil => simp [bitsValue]
  | cons x l ih =>
    have h : bitsValue (x :: l) = (2 * 0 + x.toNat) * 2 ^ l.length + bitsValue l := ih _
    rw [List.foldl_cons, ih, h, List.length_cons, Nat.pow_succ]; ring

theorem bitsValue_append (l m : List Bool) : bitsValue (l ++ m) = bitsValue l * 2 ^ m.length + bitsValue m := by
  rw [bitsValue, List.foldl_append, bitsValue_foldl]; rfl

theorem bitsValue_lt (l : List Bool) : bitsValue l < 2 ^ l.length := by
  induction l with
  | nil => simp [bitsValue]
  | cons x l ih =>
    have h : bitsValue (x :: l) = (2 * 0 + x.toNat) * 2 ^ l.length + bitsValue l := bitsValue_foldl l _
    rw [h, List.length_cons, Nat.pow_succ]
    cases x <;> simp <;> omega

theorem bitsValue_zeros (p : Nat) : bitsValue (List.replicate p false) = 0 := by
  induction p with
  | zero => rfl
  | succ p ih =>
    have h := bitsValue_append [false] (List.replicate p false)
    rw [List.replicate_succ, show false :: List.replicate p false = [false] ++ List.replicate p false from rfl, h, ih]
    simp [bitsValue]

theorem byteBits_length (b : Byte) : (byteBits b).length = 8 := by simp [byteBits]

theorem bitsValue_byteBits : ∀ b, bitsValue (byteBits b) = b.toNat := by
  apply byte_forall
  decide +kernel

theorem flatMap_byteBits_length (b : List Byte) : (b.flatMap byteBits).length = 8 * b.length := by
  induction b with
  | nil => rfl
  | cons x b ih => rw [List.flatMap_cons, List.length_append, byteBits_length, ih, List.length_cons]; ring

/-- The bits of a byte list spell its big-endian number. -/
theorem bitsValue_flatMap (b : List Byte) : bitsValue (b.flatMap byteBits) = fromBE b := by
  induction b with
  | nil => rfl
  | cons x b ih =>
    rw [List.flatMap_cons, bitsValue_append, bitsValue_byteBits, ih, flatMap_byteBits_length, fromBE_cons, Nat.pow_mul]

/-- Groups of five bits are the digits in base 32 of the number the bits spell. -/
theorem b32Number_groupsOf (k : Nat) :
    ∀ l : List Bool, l.length = 5 * k → b32Number ((groupsOf 5 k l).map bitsValue) = bitsValue l := by
  induction k with
  | zero => intro l h; have : l = [] := List.length_eq_zero_iff.mp (by omega); subst this; rfl
  | succ k ih =>
    intro l h
    have h2 : b32Number ((groupsOf 5 (k + 1) l).map bitsValue) =
        (0 * 32 + bitsValue (l.take 5)) * 32 ^ ((groupsOf 5 k (l.drop 5)).map bitsValue).length
          + b32Number ((groupsOf 5 k (l.drop 5)).map bitsValue) :=
      b32Number_foldl ((groupsOf 5 k (l.drop 5)).map bitsValue) (0 * 32 + bitsValue (l.take 5))
    rw [h2, ih _ (by rw [List.length_drop]; omega), List.length_map, groupsOf_length]
    conv_rhs =>
      rw [← List.take_append_drop 5 l, bitsValue_append, List.length_drop, h,
        show 5 * (k + 1) - 5 = 5 * k by omega, Nat.pow_mul]
    ring

theorem bitsValue_group_lt (k : Nat) : ∀ l : List Bool, ∀ g ∈ groupsOf 5 k l, bitsValue g < 32 := by
  induction k with
  | zero => intro l g hg; simp [groupsOf] at hg
  | succ k ih =>
    intro l g hg
    simp only [groupsOf, List.mem_cons] at hg
    rcases hg with rfl | hg
    · have h1 := bitsValue_lt (l.take 5)
      have : (2 : Nat) ^ (l.take 5).length ≤ 2 ^ 5 :=
        Nat.pow_le_pow_right (by omega) (by rw [List.length_take]; omega)
      omega
    · exact ih _ _ hg

end Sys2Proof.Machine
end

