-- ==== Sys2Proof/Laws/Decimal.lean ====
section
/-! SUPPORT. Laws of the decimal rendering. -/

namespace Sys2Proof.Machine

open Sys2Proof

theorem decimal_length (r n : Nat) : (decimal r n).length = n := by simp [decimal]

theorem decimal_succ (r n : Nat) : decimal r (n + 1) = digitChar (r / 10 ^ n % 10) :: decimal r n := by
  simp [decimal, List.range_succ_eq_map]
  intro k hk
  rw [show n - (k + 1) = n - 1 - k by omega]

theorem digitChar_toNat (d : Nat) (h : d < 10) : (digitChar d).toNat = 0x30 + d := by
  rw [digitChar, BitVec.toNat_ofNat]; omega

theorem isDigitChar_digitChar (d : Nat) (h : d < 10) : isDigitChar (digitChar d) = true := by
  simp [isDigitChar, digitChar_toNat d h]; omega

/-- Every character of the rendering is a decimal digit (10_state.md R21). -/
theorem decimal_all_digits (r n : Nat) : (decimal r n).all isDigitChar = true := by
  simp only [decimal, List.all_map, List.all_eq_true, List.mem_range, Function.comp]
  intro j _
  exact isDigitChar_digitChar _ (Nat.mod_lt _ (by omega))

theorem decimalValue_cons (c : Byte) (l : List Byte) :
    decimalValue (c :: l) = (c.toNat - 0x30) * 10 ^ l.length + decimalValue l := by
  have gen : ∀ (l : List Byte) (a : Nat), l.foldl (fun acc c => acc * 10 + (c.toNat - 0x30)) a =
      a * 10 ^ l.length + decimalValue l := by
    intro l
    induction l with
    | nil => intro a; simp [decimalValue]
    | cons x l ih =>
      intro a
      have h : decimalValue (x :: l) = (0 * 10 + (x.toNat - 0x30)) * 10 ^ l.length + decimalValue l := ih _
      rw [List.foldl_cons, ih, h, List.length_cons, Nat.pow_succ]; ring
  have h : decimalValue (c :: l) = (0 * 10 + (c.toNat - 0x30)) * 10 ^ l.length + decimalValue l := gen l _
  rw [h]; ring

/-- Read as decimal the rendering spells the value's last `n` digits. -/
theorem decimalValue_decimal (r n : Nat) : decimalValue (decimal r n) = r % 10 ^ n := by
  induction n with
  | zero => simp [decimal, decimalValue, Nat.mod_one]
  | succ n ih =>
    rw [decimal_succ, decimalValue_cons, ih, decimal_length, digitChar_toNat _ (Nat.mod_lt _ (by omega)),
      Nat.pow_succ, Nat.mod_mul, Nat.add_sub_cancel_left]
    ring

theorem decimal_getElem? (r n j : Nat) (h : j < n) :
    (decimal r n)[j]? = some (digitChar (r / 10 ^ (n - 1 - j) % 10)) := by
  simp [decimal, h]

/-- The rendering depends on the value's last `n` digits only. -/
theorem decimal_mod (r n : Nat) : decimal (r % 10 ^ n) n = decimal r n := by
  apply List.ext_getElem?
  intro j
  by_cases h : j < n
  · rw [decimal_getElem? _ _ _ h, decimal_getElem? _ _ _ h]
    have hp : (10 : Nat) ^ n = 10 ^ (n - 1 - j) * (10 * 10 ^ j) := by
      rw [← Nat.pow_succ', ← Nat.pow_add]; congr 1; omega
    rw [hp, Nat.mod_mul_right_div_self, Nat.mod_mul_right_mod]
  · rw [List.getElem?_eq_none (by rw [decimal_length]; omega), List.getElem?_eq_none (by rw [decimal_length]; omega)]

/-- A shorter rendering is the tail of a longer one. -/
theorem decimal_drop (r n k : Nat) (h : k ≤ n) : (decimal r n).drop (n - k) = decimal r k := by
  apply List.ext_getElem?
  intro j
  rw [List.getElem?_drop]
  by_cases hj : j < k
  · rw [decimal_getElem? _ _ _ (by omega), decimal_getElem? _ _ _ hj]
    rw [show n - 1 - (n - k + j) = k - 1 - j by omega]
  · rw [List.getElem?_eq_none (by rw [decimal_length]; omega), List.getElem?_eq_none (by rw [decimal_length]; omega)]

end Sys2Proof.Machine
end

