-- ==== Sys2Proof/Laws/State.lean ====
section
/-! SUPPORT. What each shared update of the state does to each field, one lemma per field per update. -/

namespace Sys2Proof.Machine

open Sys2Proof

/-! ## `succeed` -/

@[simp] theorem succeed_timestamp (s : State) :
    (succeed s).timestamp = s.timestamp := rfl

@[simp] theorem succeed_timestep (s : State) :
    (succeed s).timestep = s.timestep := rfl

@[simp] theorem succeed_digits (s : State) :
    (succeed s).digits = s.digits := rfl

@[simp] theorem succeed_counter (s : State) :
    (succeed s).counter = s.counter := rfl

@[simp] theorem succeed_trunc (s : State) :
    (succeed s).trunc = s.trunc := rfl

@[simp] theorem succeed_err (s : State) :
    (succeed s).err = 0 := rfl

@[simp] theorem succeed_secret (s : State) :
    (succeed s).secret = s.secret := rfl

@[simp] theorem succeed_key (s : State) :
    (succeed s).key = s.key := rfl

@[simp] theorem succeed_msg (s : State) :
    (succeed s).msg = s.msg := rfl

@[simp] theorem succeed_digest (s : State) :
    (succeed s).digest = s.digest := rfl

@[simp] theorem succeed_code (s : State) :
    (succeed s).code = s.code := rfl

@[simp] theorem succeed_script (s : State) :
    (succeed s).script = s.script := rfl

@[simp] theorem succeed_responses (s : State) :
    (succeed s).responses = s.responses := rfl

/-! ## `State.respond` -/

@[simp] theorem respond_timestamp (s : State) (r : Resp) :
    (s.respond r).timestamp = s.timestamp := rfl

@[simp] theorem respond_timestep (s : State) (r : Resp) :
    (s.respond r).timestep = s.timestep := rfl

@[simp] theorem respond_digits (s : State) (r : Resp) :
    (s.respond r).digits = s.digits := rfl

@[simp] theorem respond_counter (s : State) (r : Resp) :
    (s.respond r).counter = s.counter := rfl

@[simp] theorem respond_trunc (s : State) (r : Resp) :
    (s.respond r).trunc = s.trunc := rfl

@[simp] theorem respond_err (s : State) (r : Resp) :
    (s.respond r).err = s.err := rfl

@[simp] theorem respond_secret (s : State) (r : Resp) :
    (s.respond r).secret = s.secret := rfl

@[simp] theorem respond_key (s : State) (r : Resp) :
    (s.respond r).key = s.key := rfl

@[simp] theorem respond_msg (s : State) (r : Resp) :
    (s.respond r).msg = s.msg := rfl

@[simp] theorem respond_digest (s : State) (r : Resp) :
    (s.respond r).digest = s.digest := rfl

@[simp] theorem respond_code (s : State) (r : Resp) :
    (s.respond r).code = s.code := rfl

@[simp] theorem respond_script (s : State) (r : Resp) :
    (s.respond r).script = s.script := rfl

@[simp] theorem respond_responses (s : State) (r : Resp) :
    (s.respond r).responses = r :: s.responses := rfl

/-! ## `State.cleared` -/

@[simp] theorem cleared_timestamp (s : State) :
    s.cleared.timestamp = none := rfl

@[simp] theorem cleared_timestep (s : State) :
    s.cleared.timestep = 30 := rfl

@[simp] theorem cleared_digits (s : State) :
    s.cleared.digits = 6 := rfl

@[simp] theorem cleared_counter (s : State) :
    s.cleared.counter = none := rfl

@[simp] theorem cleared_trunc (s : State) :
    s.cleared.trunc = none := rfl

@[simp] theorem cleared_err (s : State) :
    s.cleared.err = 0 := rfl

@[simp] theorem cleared_secret (s : State) :
    s.cleared.secret = [] := rfl

@[simp] theorem cleared_key (s : State) :
    s.cleared.key = [] := rfl

@[simp] theorem cleared_msg (s : State) :
    s.cleared.msg = [] := rfl

@[simp] theorem cleared_digest (s : State) :
    s.cleared.digest = [] := rfl

@[simp] theorem cleared_code (s : State) :
    s.cleared.code = [] := rfl

@[simp] theorem cleared_script (s : State) :
    s.cleared.script = s.script := rfl

@[simp] theorem cleared_responses (s : State) :
    s.cleared.responses = s.responses := rfl

/-! ## `State.setBuf` -/

@[simp] theorem setBuf_timestamp (s : State) (b : Buf) (l : List Byte) :
    (s.setBuf b l).timestamp = s.timestamp := by
  cases b <;> rfl

@[simp] theorem setBuf_timestep (s : State) (b : Buf) (l : List Byte) :
    (s.setBuf b l).timestep = s.timestep := by
  cases b <;> rfl

@[simp] theorem setBuf_digits (s : State) (b : Buf) (l : List Byte) :
    (s.setBuf b l).digits = s.digits := by
  cases b <;> rfl

@[simp] theorem setBuf_counter (s : State) (b : Buf) (l : List Byte) :
    (s.setBuf b l).counter = s.counter := by
  cases b <;> rfl

@[simp] theorem setBuf_trunc (s : State) (b : Buf) (l : List Byte) :
    (s.setBuf b l).trunc = s.trunc := by
  cases b <;> rfl

@[simp] theorem setBuf_err (s : State) (b : Buf) (l : List Byte) :
    (s.setBuf b l).err = s.err := by
  cases b <;> rfl

@[simp] theorem setBuf_secret (s : State) (b : Buf) (l : List Byte) :
    (s.setBuf b l).secret = if b = .secret then l else s.secret := by
  cases b <;> rfl

@[simp] theorem setBuf_key (s : State) (b : Buf) (l : List Byte) :
    (s.setBuf b l).key = if b = .key then l else s.key := by
  cases b <;> rfl

@[simp] theorem setBuf_msg (s : State) (b : Buf) (l : List Byte) :
    (s.setBuf b l).msg = if b = .msg then l else s.msg := by
  cases b <;> rfl

@[simp] theorem setBuf_digest (s : State) (b : Buf) (l : List Byte) :
    (s.setBuf b l).digest = if b = .digest then l else s.digest := by
  cases b <;> rfl

@[simp] theorem setBuf_code (s : State) (b : Buf) (l : List Byte) :
    (s.setBuf b l).code = if b = .code then l else s.code := by
  cases b <;> rfl

@[simp] theorem setBuf_script (s : State) (b : Buf) (l : List Byte) :
    (s.setBuf b l).script = s.script := by
  cases b <;> rfl

@[simp] theorem setBuf_responses (s : State) (b : Buf) (l : List Byte) :
    (s.setBuf b l).responses = s.responses := by
  cases b <;> rfl

@[simp] theorem buf_setBuf_same (s : State) (b : Buf) (l : List Byte) :
    (s.setBuf b l).buf b = l := by
  cases b <;> rfl

theorem buf_setBuf_other (s : State) (b b' : Buf) (l : List Byte) (h : b' ≠ b) :
    (s.setBuf b l).buf b' = s.buf b' := by
  cases b <;> cases b' <;> first | rfl | exact absurd rfl h

@[simp] theorem setBuf_setBuf (s : State) (b : Buf) (l l' : List Byte) :
    (s.setBuf b l).setBuf b l' = s.setBuf b l' := by
  cases b <;> rfl

/-! ## Ending a command with an error -/

/-- What a failing B32DEC leaves (60_exceptions.md R142). -/
theorem failCommand_b32dec (e : CmdError) (s : State) :
    failCommand .b32dec e s = { s with key := [], err := e.code } := rfl

/-- What a failing TCNT leaves (60_exceptions.md R142). -/
theorem failCommand_tcnt (e : CmdError) (s : State) :
    failCommand .tcnt e s = { s with counter := none, err := e.code } := rfl

/-- What a failing CTRENC leaves (60_exceptions.md R142). -/
theorem failCommand_ctrenc (e : CmdError) (s : State) :
    failCommand .ctrenc e s = { s with msg := [], err := e.code } := rfl

/-- What a failing TRUNC leaves (60_exceptions.md R142). -/
theorem failCommand_trunc (e : CmdError) (s : State) :
    failCommand .trunc e s = { s with trunc := none, err := e.code } := rfl

/-- What a failing FMT leaves (60_exceptions.md R142). -/
theorem failCommand_fmt (e : CmdError) (s : State) :
    failCommand .fmt e s = { s with code := [], err := e.code } := rfl

/-- What a failing GEN leaves (60_exceptions.md R142). -/
theorem failCommand_gen (e : CmdError) (s : State) :
    failCommand .gen e s = { s with counter := none, key := [], msg := [], digest := [], trunc := none, code := [], err := e.code } := rfl

/-- What an illegal word leaves (30_encoding.md R62). -/
theorem illegalCommand_eq (s : State) : illegalCommand s = { s with err := 7 } := rfl

/-- A reset state with the host's script and responses: every item at its reset value. -/
theorem cleared_item (s : State) (x : Item) : s.cleared.item x = State.reset.item x := by
  cases x <;> rfl

end Sys2Proof.Machine
end

