-- ==== Sys2Proof/Laws/Commands.lean ====
section
/-! SUPPORT. What each unit function and each command can answer, said once: an equation or an inversion lemma per
function, which later proofs cite instead of unfolding it. -/

namespace Sys2Proof.Machine

open Sys2Proof

/-! ## Unit functions -/

/-- The decoder's only error is `InvalidEncoding`, exactly when some character is invalid. -/
theorem b32Decode_error (s : List Byte) (e : CmdError) (h : b32Decode s = .error e) :
    e = .invalidEncoding ∧ b32HasInvalid s = true := by
  rw [b32Decode, b32Loop_eq s 0 0 [] (by omega) (by simp)] at h
  split at h <;> simp_all

theorem b32Decode_ok (s out : List Byte) (h : b32Decode s = .ok out) :
    b32HasInvalid s = false ∧ out = b32Closed (b32Values s) := by
  rw [b32Decode, b32Loop_eq s 0 0 [] (by omega) (by simp)] at h
  split at h <;> simp_all [wholeBytes, b32Closed]

theorem b32Decode_of_invalid (s : List Byte) (h : b32HasInvalid s = true) : b32Decode s = .error .invalidEncoding := by
  rw [b32Decode, b32Loop_eq s 0 0 [] (by omega) (by simp), h]; rfl

theorem b32Decode_of_valid (s : List Byte) (h : b32HasInvalid s = false) :
    b32Decode s = .ok (b32Closed (b32Values s)) := by
  rw [b32Decode, b32Loop_eq s 0 0 [] (by omega) (by simp), h]
  simp [wholeBytes, b32Closed]

theorem b32Closed_length (vs : List Nat) : (b32Closed vs).length = 5 * vs.length / 8 := by simp [b32Closed]

theorem b32Values_length_le (s : List Byte) : (b32Values s).length ≤ s.length := List.length_filterMap_le _ _

theorem timeCounter_zero (t : Word64) (step : Word32) (h : step = 0) :
    timeCounter t step = .error .invalidTimeStep := by
  subst h; rfl

theorem timeCounter_pos (t : Word64) (step : Word32) (h : step ≠ 0) :
    timeCounter t step = .ok (BitVec.ofNat 64 (t.toNat / step.toNat)) := by
  have : step.toNat ≠ 0 := fun h0 => h (BitVec.eq_of_toNat_eq h0)
  simp [timeCounter, this]

/-- The quotient fits 64 bits: it never exceeds the timestamp (41_counter_encoder.md R90). -/
theorem quotient_toNat (t : Word64) (step : Word32) :
    (BitVec.ofNat 64 (t.toNat / step.toNat)).toNat = t.toNat / step.toNat := by
  rw [BitVec.toNat_ofNat, Nat.mod_eq_of_lt (Nat.lt_of_le_of_lt (Nat.div_le_self _ _) t.isLt)]

theorem counterEncode_error (m : CtrMode) (c : Word64) (e : CmdError) (h : counterEncode m c = .error e) :
    e = .counterOverflow ∧ m = .fault32 ∧ 2 ^ 32 ≤ c.toNat := by
  cases m <;> simp only [counterEncode] at h
  · split at h <;> simp_all
  · simp at h
  · simp at h

theorem counterEncode_length (m : CtrMode) (c : Word64) (block : List Byte) (h : counterEncode m c = .ok block) :
    block.length = 8 := by
  cases m <;> simp only [counterEncode] at h
  · split at h
    · simp at h
    · simp only [Except.ok.injEq] at h; subst h; simp [be_length]
  · simp only [Except.ok.injEq] at h; subst h; simp [be_length]
  · simp only [Except.ok.injEq] at h; subst h; simp [be_length]

theorem counterEncode_overflow (c : Word64) (h : 2 ^ 32 ≤ c.toNat) :
    counterEncode .fault32 c = .error .counterOverflow := by
  rw [counterEncode, if_pos h]

theorem counterEncode_ok (m : CtrMode) (c : Word64) (h : m = .fault32 → c.toNat < 2 ^ 32) :
    ∃ block, counterEncode m c = .ok block := by
  cases m
  · exact ⟨_, by rw [counterEncode, if_neg (by have := h rfl; omega)]⟩
  · exact ⟨_, rfl⟩
  · exact ⟨_, rfl⟩

theorem format_error (digitsMax : Nat) (v : Word32) (n : Byte) (e : CmdError) (h : format digitsMax v n = .error e) :
    e = .invalidDigitCount ∧ (n.toNat = 0 ∨ digitsMax < n.toNat) := by
  simp only [format] at h
  split at h <;> simp_all

theorem format_ok (digitsMax : Nat) (v : Word32) (n : Byte) (code : List Byte) (h : format digitsMax v n = .ok code) :
    1 ≤ n.toNat ∧ n.toNat ≤ digitsMax ∧ code = decimal (v.toNat % 10 ^ n.toNat) n.toNat := by
  simp only [format] at h
  split at h
  · simp at h
  · rename_i hn
    rw [not_or] at hn
    simp only [Except.ok.injEq] at h
    exact ⟨by omega, by omega, h.symm⟩

theorem format_bad (digitsMax : Nat) (v : Word32) (n : Byte) (h : n.toNat = 0 ∨ digitsMax < n.toNat) :
    format digitsMax v n = .error .invalidDigitCount := by
  rw [format, if_pos h]

theorem format_good (digitsMax : Nat) (v : Word32) (n : Byte) (h : 1 ≤ n.toNat) (h' : n.toNat ≤ digitsMax) :
    format digitsMax v n = .ok (decimal (v.toNat % 10 ^ n.toNat) n.toNat) := by
  rw [format, if_neg (by omega)]

/-- What a successful `Generate` is made of (45_generate_and_clear.md R130). -/
theorem generate_ok (cfg : Config) (secret : List Byte) (t : Word64) (step : Word32) (n : Byte) (g : Generated)
    (h : generate cfg secret t step n = .ok g) :
    timeCounter t step = .ok g.counter ∧ b32Decode secret = .ok g.key ∧ g.key.length ≠ 0 ∧
    counterEncode cfg.ctrMode g.counter = .ok g.block ∧ g.digest = hmacSha1 g.key g.block ∧
    g.value = truncate (hmacSha1 g.key g.block) (hmacSha1_length g.key g.block) ∧
    format cfg.digitsMax g.value n = .ok g.code := by
  simp only [generate] at h
  split at h
  · simp at h
  split at h
  · simp at h
  split at h
  · simp at h
  split at h
  · simp at h
  split at h
  · simp at h
  · simp only [Except.ok.injEq] at h
    subst h
    exact ⟨by assumption, by assumption, by assumption, by assumption, rfl, rfl, by assumption⟩

/-- A failing `Generate` reports one of the five errors of its steps (45_generate_and_clear.md R130). -/
theorem generate_error (cfg : Config) (secret : List Byte) (t : Word64) (step : Word32) (n : Byte) (e : CmdError)
    (h : generate cfg secret t step n = .error e) :
    e = .invalidTimeStep ∨ e = .invalidEncoding ∨ e = .emptySecret ∨ e = .counterOverflow ∨ e = .invalidDigitCount := by
  simp only [generate] at h
  split at h
  · rename_i h1
    simp only [timeCounter] at h1
    split at h1 <;> simp_all
  split at h
  · rename_i h1
    have := b32Decode_error _ _ h1
    simp_all
  split at h
  · simp_all
  split at h
  · rename_i h1
    have := counterEncode_error _ _ _ h1
    simp_all
  split at h
  · rename_i h1
    have := format_error _ _ _ _ h1
    simp_all
  · simp at h

theorem b32Closed_eq_nil (vs : List Nat) : b32Closed vs = [] ↔ vs.length ≤ 1 := by
  rw [← List.length_eq_zero_iff, b32Closed_length]; omega

theorem generate_zero_step (cfg : Config) (secret : List Byte) (t : Word64) (step : Word32) (n : Byte) (h : step = 0) :
    generate cfg secret t step n = .error .invalidTimeStep := by
  simp only [generate, timeCounter_zero _ _ h]

theorem generate_invalid (cfg : Config) (secret : List Byte) (t : Word64) (step : Word32) (n : Byte) (h : step ≠ 0)
    (h1 : b32HasInvalid secret = true) : generate cfg secret t step n = .error .invalidEncoding := by
  simp only [generate, timeCounter_pos _ _ h, b32Decode_of_invalid _ h1]

theorem generate_empty (cfg : Config) (secret : List Byte) (t : Word64) (step : Word32) (n : Byte) (h : step ≠ 0)
    (h1 : b32HasInvalid secret = false) (h2 : b32Closed (b32Values secret) = []) :
    generate cfg secret t step n = .error .emptySecret := by
  simp only [generate, timeCounter_pos _ _ h, b32Decode_of_valid _ h1, h2]
  rfl

theorem generate_overflow (cfg : Config) (secret : List Byte) (t : Word64) (step : Word32) (n : Byte) (h : step ≠ 0)
    (h1 : b32HasInvalid secret = false) (h2 : b32Closed (b32Values secret) ≠ []) (h3 : cfg.ctrMode = .fault32)
    (h4 : 2 ^ 32 ≤ t.toNat / step.toNat) : generate cfg secret t step n = .error .counterOverflow := by
  have h2' : ¬ (b32Closed (b32Values secret)).length = 0 := fun h0 => h2 (List.length_eq_zero_iff.mp h0)
  simp only [generate, timeCounter_pos _ _ h, b32Decode_of_valid _ h1, if_neg h2', h3,
    counterEncode_overflow _ (by rw [quotient_toNat]; exact h4)]

theorem generate_bad_digits (cfg : Config) (secret : List Byte) (t : Word64) (step : Word32) (n : Byte) (h : step ≠ 0)
    (h1 : b32HasInvalid secret = false) (h2 : b32Closed (b32Values secret) ≠ [])
    (h3 : cfg.ctrMode = .fault32 → t.toNat / step.toNat < 2 ^ 32) (h4 : n.toNat = 0 ∨ cfg.digitsMax < n.toNat) :
    generate cfg secret t step n = .error .invalidDigitCount := by
  have h2' : ¬ (b32Closed (b32Values secret)).length = 0 := fun h0 => h2 (List.length_eq_zero_iff.mp h0)
  obtain ⟨b, hb⟩ := counterEncode_ok cfg.ctrMode (BitVec.ofNat 64 (t.toNat / step.toNat))
    (by rw [quotient_toNat]; exact h3)
  simp only [generate, timeCounter_pos _ _ h, b32Decode_of_valid _ h1, if_neg h2', hb, format_bad _ _ _ h4]

theorem generate_success (cfg : Config) (secret : List Byte) (t : Word64) (step : Word32) (n : Byte) (h : step ≠ 0)
    (h1 : b32HasInvalid secret = false) (h2 : b32Closed (b32Values secret) ≠ [])
    (h3 : cfg.ctrMode = .fault32 → t.toNat / step.toNat < 2 ^ 32) (h4 : 1 ≤ n.toNat) (h5 : n.toNat ≤ cfg.digitsMax) :
    ∃ g, generate cfg secret t step n = .ok g := by
  have h2' : ¬ (b32Closed (b32Values secret)).length = 0 := fun h0 => h2 (List.length_eq_zero_iff.mp h0)
  obtain ⟨b, hb⟩ := counterEncode_ok cfg.ctrMode (BitVec.ofNat 64 (t.toNat / step.toNat))
    (by rw [quotient_toNat]; exact h3)
  simp only [generate, timeCounter_pos _ _ h, b32Decode_of_valid _ h1, if_neg h2', hb, format_good _ _ _ h4 h5]
  exact ⟨_, rfl⟩

/-! ## Commands -/

@[simp] theorem exec_b32dec (s : State) : exec .b32dec s = .next (b32dec s) := rfl
@[simp] theorem exec_tcnt (s : State) : exec .tcnt s = .next (tcnt s) := rfl
@[simp] theorem exec_ctrenc (s : State) : exec .ctrenc s = .next (ctrenc Config.totpcore s) := rfl
@[simp] theorem exec_hmac (s : State) : exec .hmac s = .next (hmac s) := rfl
@[simp] theorem exec_trunc (s : State) : exec .trunc s = .next (trunc s) := rfl
@[simp] theorem exec_fmt (s : State) : exec .fmt s = .next (fmt Config.totpcore s) := rfl
@[simp] theorem exec_gen (s : State) : exec .gen s = .next (gen Config.totpcore s) := rfl
@[simp] theorem exec_clr (s : State) : exec .clr s = .next (clr s) := rfl

/-- Everything B32DEC can do. -/
theorem b32dec_cases (s : State) :
    (∃ out, b32Decode s.secret = .ok out ∧ b32dec s = { s with key := out, err := 0 }) ∨
    (b32Decode s.secret = .error .invalidEncoding ∧ b32dec s = { s with key := [], err := 1 }) := by
  unfold b32dec
  cases h : b32Decode s.secret with
  | ok out => exact .inl ⟨out, rfl, rfl⟩
  | error e =>
    obtain ⟨rfl, -⟩ := b32Decode_error _ _ h
    exact .inr ⟨rfl, rfl⟩

/-- Everything TCNT can do. -/
theorem tcnt_cases (s : State) :
    (s.timestamp = none ∧ tcnt s = { s with counter := none, err := 6 }) ∨
    (∃ t, s.timestamp = some t ∧ s.timestep = 0 ∧ tcnt s = { s with counter := none, err := 5 }) ∨
    (∃ t, s.timestamp = some t ∧ s.timestep ≠ 0 ∧
      tcnt s = { s with counter := some (BitVec.ofNat 64 (t.toNat / s.timestep.toNat)), err := 0 }) := by
  unfold tcnt
  split
  · exact .inl ⟨by assumption, rfl⟩
  · rename_i t ht
    by_cases h0 : s.timestep = 0
    · rw [timeCounter_zero _ _ h0]
      exact .inr (.inl ⟨t, ht, h0, rfl⟩)
    · rw [timeCounter_pos _ _ h0]
      exact .inr (.inr ⟨t, ht, h0, rfl⟩)

/-- Everything CTRENC can do. -/
theorem ctrenc_cases (cfg : Config) (s : State) :
    (s.counter = none ∧ ctrenc cfg s = { s with msg := [], err := 6 }) ∨
    (∃ c, s.counter = some c ∧ cfg.ctrMode = .fault32 ∧ 2 ^ 32 ≤ c.toNat ∧
      ctrenc cfg s = { s with msg := [], err := 2 }) ∨
    (∃ c block, s.counter = some c ∧ counterEncode cfg.ctrMode c = .ok block ∧
      ctrenc cfg s = { s with msg := block, err := 0 }) := by
  unfold ctrenc
  split
  · exact .inl ⟨by assumption, rfl⟩
  · rename_i c h
    split
    · rename_i block hc
      exact .inr (.inr ⟨c, block, h, hc, rfl⟩)
    · rename_i e hc
      obtain ⟨rfl, hm, hl⟩ := counterEncode_error _ _ _ hc
      exact .inr (.inl ⟨c, h, hm, hl, rfl⟩)

/-- Everything HMAC can do. -/
theorem hmac_eq (s : State) : hmac s = { s with digest := hmacSha1 s.key s.msg, err := 0 } := rfl

/-- Everything TRUNC can do. -/
theorem trunc_cases (s : State) :
    (∃ h : s.digest.length = 20, trunc s = { s with trunc := some (truncate s.digest h), err := 0 }) ∨
    (s.digest.length ≠ 20 ∧ trunc s = { s with trunc := none, err := 6 }) := by
  unfold trunc
  split
  · exact .inl ⟨by assumption, rfl⟩
  · exact .inr ⟨by assumption, rfl⟩

/-- Everything FMT can do. -/
theorem fmt_cases (cfg : Config) (s : State) :
    (s.trunc = none ∧ fmt cfg s = { s with code := [], err := 6 }) ∨
    (∃ v, s.trunc = some v ∧ (s.digits.toNat = 0 ∨ cfg.digitsMax < s.digits.toNat) ∧
      fmt cfg s = { s with code := [], err := 3 }) ∨
    (∃ v, s.trunc = some v ∧ 1 ≤ s.digits.toNat ∧ s.digits.toNat ≤ cfg.digitsMax ∧
      fmt cfg s = { s with code := decimal (v.toNat % 10 ^ s.digits.toNat) s.digits.toNat, err := 0 }) := by
  unfold fmt
  split
  · exact .inl ⟨by assumption, rfl⟩
  · rename_i v h
    split
    · rename_i code hc
      obtain ⟨h1, h2, rfl⟩ := format_ok _ _ _ _ hc
      exact .inr (.inr ⟨v, h, h1, h2, rfl⟩)
    · rename_i e hc
      obtain ⟨rfl, hn⟩ := format_error _ _ _ _ hc
      exact .inr (.inl ⟨v, h, hn, rfl⟩)

/-- What a failing GEN leaves (60_exceptions.md R142). -/
def genFailed (s : State) (e : Byte) : State :=
  { s with counter := none, key := [], msg := [], digest := [], trunc := none, code := [], err := e }

/-- What a succeeding GEN leaves (45_generate_and_clear.md R131). -/
def genDone (s : State) (g : Generated) : State :=
  { s with counter := some g.counter, key := g.key, msg := g.block, digest := g.digest, trunc := some g.value,
           code := g.code, err := 0 }

/-- Everything GEN can do. -/
theorem gen_cases (cfg : Config) (s : State) :
    (s.timestamp = none ∧ gen cfg s = genFailed s 6) ∨
    (∃ t e, s.timestamp = some t ∧ generate cfg s.secret t s.timestep s.digits = .error e ∧
      gen cfg s = genFailed s e.code) ∨
    (∃ t g, s.timestamp = some t ∧ generate cfg s.secret t s.timestep s.digits = .ok g ∧ gen cfg s = genDone s g) := by
  unfold gen
  split
  · exact .inl ⟨by assumption, rfl⟩
  · rename_i t h
    split
    · rename_i g hg
      exact .inr (.inr ⟨t, g, h, hg, rfl⟩)
    · rename_i e hg
      exact .inr (.inl ⟨t, e, h, hg, rfl⟩)

theorem gen_of_none (cfg : Config) (s : State) (h : s.timestamp = none) : gen cfg s = genFailed s 6 := by
  obtain ⟨-, h3⟩ | ⟨_, _, h1, -, -⟩ | ⟨_, _, h1, -, -⟩ := gen_cases cfg s
  · exact h3
  · rw [h] at h1; cases h1
  · rw [h] at h1; cases h1

theorem gen_of_error (cfg : Config) (s : State) (t : Word64) (e : CmdError) (h : s.timestamp = some t)
    (h' : generate cfg s.secret t s.timestep s.digits = .error e) : gen cfg s = genFailed s e.code := by
  obtain ⟨h1, -⟩ | ⟨_, _, h1, h2, h3⟩ | ⟨_, _, h1, h2, -⟩ := gen_cases cfg s
  · rw [h] at h1; cases h1
  · rw [h] at h1; cases h1; rw [h'] at h2; cases h2; exact h3
  · rw [h] at h1; cases h1; rw [h'] at h2; cases h2

theorem gen_of_ok (cfg : Config) (s : State) (t : Word64) (g : Generated) (h : s.timestamp = some t)
    (h' : generate cfg s.secret t s.timestep s.digits = .ok g) : gen cfg s = genDone s g := by
  obtain ⟨h1, -⟩ | ⟨_, _, h1, h2, -⟩ | ⟨_, _, h1, h2, h3⟩ := gen_cases cfg s
  · rw [h] at h1; cases h1
  · rw [h] at h1; cases h1; rw [h'] at h2; cases h2
  · rw [h] at h1; cases h1; rw [h'] at h2; cases h2; exact h3

theorem clr_eq (s : State) : clr s = s.cleared := rfl

/-- Every command answers a next state. -/
theorem exec_total (i : Instr) (s : State) : ∃ t, exec i s = .next t := by
  cases i <;> exact ⟨_, rfl⟩

/-- No command touches the host's script and responses. -/
theorem exec_script (i : Instr) (s t : State) (h : exec i s = .next t) :
    t.script = s.script ∧ t.responses = s.responses := by
  cases i <;> simp only [exec_b32dec, exec_tcnt, exec_ctrenc, exec_hmac, exec_trunc, exec_fmt, exec_gen, exec_clr,
    Host.Outcome.next.injEq] at h <;> subst h
  · obtain ⟨_, -, h⟩ | ⟨-, h⟩ := b32dec_cases s <;> rw [h] <;> exact ⟨rfl, rfl⟩
  · obtain ⟨-, h⟩ | ⟨_, -, -, h⟩ | ⟨_, -, -, h⟩ := tcnt_cases s <;> rw [h] <;> exact ⟨rfl, rfl⟩
  · obtain ⟨-, h⟩ | ⟨_, -, -, -, h⟩ | ⟨_, _, -, -, h⟩ := ctrenc_cases Config.totpcore s <;> rw [h] <;> exact ⟨rfl, rfl⟩
  · exact ⟨rfl, rfl⟩
  · obtain ⟨_, h⟩ | ⟨-, h⟩ := trunc_cases s <;> rw [h] <;> exact ⟨rfl, rfl⟩
  · obtain ⟨-, h⟩ | ⟨_, -, -, h⟩ | ⟨_, -, -, -, h⟩ := fmt_cases Config.totpcore s <;> rw [h] <;> exact ⟨rfl, rfl⟩
  · obtain ⟨-, h⟩ | ⟨_, _, -, -, h⟩ | ⟨_, _, -, -, h⟩ := gen_cases Config.totpcore s <;> rw [h] <;> exact ⟨rfl, rfl⟩
  · exact ⟨rfl, rfl⟩

/-- No command reads the host's script. -/
theorem exec_withScript (i : Instr) (s t : State) (q : List Txn) (h : exec i s = .next t) :
    exec i { s with script := q } = .next { t with script := q } := by
  have hg : exec i { s with script := q } = .next { (match exec i s with | .next t => t | _ => s) with script := q } := by
    cases i
    · simp only [exec_b32dec, b32dec]; split <;> rfl
    · simp only [exec_tcnt, tcnt]; split <;> [skip; split] <;> rfl
    · simp only [exec_ctrenc, ctrenc]; split <;> [skip; split] <;> rfl
    · rfl
    · simp only [exec_trunc, trunc]; split <;> rfl
    · simp only [exec_fmt, fmt]; split <;> [skip; split] <;> rfl
    · simp only [exec_gen, gen]; split <;> [skip; split] <;> rfl
    · rfl
  rw [hg, h]

end Sys2Proof.Machine
end

