-- ==== Sys2Proof/Laws/HostPort.lean ====
section
/-! SUPPORT. Laws of the host port: the register map, the fields of a command word, and what a transaction can do, said
once each. -/

namespace Sys2Proof.Machine

open Sys2Proof

/-! ## Command words -/

theorem rsv_toNat (w : Word32) : (CommandWord.rsv w).toNat = w.toNat / 256 := by
  have := w.isLt
  simp only [CommandWord.rsv, BitVec.extractLsb'_toNat, Nat.shiftRight_eq_div_pow]
  omega

theorem opc_toNat (w : Word32) : (CommandWord.opc w).toNat = w.toNat % 256 := by
  simp [CommandWord.opc, BitVec.extractLsb'_toNat]

/-- A word decodes to a command exactly when it is the command's word (30_encoding.md R61), as numbers. -/
theorem decodeOpc_toNat (b : Byte) (i : Instr) : decodeOpc b = .ok i ↔ b.toNat = (encode i).toNat := by
  unfold decodeOpc
  have hb := b.isLt
  split <;> rename_i h <;> cases i <;> simp [encode, *] at * <;> omega

theorem decode_ok_toNat (w : Word32) (i : Instr) : decode w = .ok i ↔ w.toNat = (encode i).toNat := by
  have h0 : CommandWord.rsv w = 0 ↔ w.toNat / 256 = 0 := by
    rw [← rsv_toNat]
    constructor
    · intro h; rw [h]; rfl
    · intro h; exact BitVec.eq_of_toNat_eq h
  have he : (encode i).toNat < 256 := by cases i <;> decide
  unfold decode
  split
  · rename_i h
    rw [decodeOpc_toNat, opc_toNat]
    have := h0.mp h
    omega
  · rename_i h
    constructor
    · intro hc; cases hc
    · intro hw; exact absurd (h0.mpr (by omega)) h

theorem decode_error_of (w : Word32) (h : w.toNat = 0 ∨ 9 ≤ w.toNat) : ∃ e, decode w = .error e := by
  cases hd : decode w with
  | error e => exact ⟨e, rfl⟩
  | ok i =>
    have := (decode_ok_toNat w i).mp hd
    have hi : 1 ≤ (encode i).toNat ∧ (encode i).toNat ≤ 8 := by cases i <;> decide
    omega

/-! ## The register map -/

theorem dataReg_eq_some (b : Buf) (i : Nat) (r : Reg) : dataReg b i = some r ↔ i < b.window ∧ r = .data b i := by
  unfold dataReg
  split <;> simp_all [eq_comm]

theorem number_data_toNat (b : Buf) (i : Nat) (h : i < b.window) : (Reg.data b i).number.toNat = b.base + i := by
  cases b <;> simp only [Reg.number, Buf.base, Buf.window, BitVec.toNat_ofNat] at * <;> omega

/-- A register of the map is found under its number (20_memory.md R57). -/
theorem regOf_number (r : Reg) (h : r.mapped = true) : regOf r.number = some r := by
  cases r with
  | len b => cases b <;> rfl
  | push b => cases b <;> rfl
  | data b i =>
    have hi : i < b.window := by simpa [Reg.mapped] using h
    have hn := number_data_toNat b i hi
    have hreg : ∀ k, (Reg.data b i).number.toNat / 256 = k + 1 → regOf (Reg.data b i).number =
        (match k + 1 with
          | 1 => dataReg .secret ((Reg.data b i).number.toNat - 0x100)
          | 2 => dataReg .key ((Reg.data b i).number.toNat - 0x200)
          | 3 => dataReg .msg ((Reg.data b i).number.toNat - 0x300)
          | 4 => dataReg .digest ((Reg.data b i).number.toNat - 0x400)
          | 5 => dataReg .code ((Reg.data b i).number.toNat - 0x500)
          | _ => none) := by
      intro k hk
      rw [regOf, hk]
      rcases k with _ | _ | _ | _ | _ | k <;> rfl
    cases b <;> simp only [Buf.base, Buf.window] at hn hi
    · rw [hreg 0 (by omega)]; simp only [hn]; rw [dataReg_eq_some]; exact ⟨by simp only [Buf.window]; omega, by rw [Nat.add_sub_cancel_left]⟩
    · rw [hreg 1 (by omega)]; simp only [hn]; rw [dataReg_eq_some]; exact ⟨by simp only [Buf.window]; omega, by rw [Nat.add_sub_cancel_left]⟩
    · rw [hreg 2 (by omega)]; simp only [hn]; rw [dataReg_eq_some]; exact ⟨by simp only [Buf.window]; omega, by rw [Nat.add_sub_cancel_left]⟩
    · rw [hreg 3 (by omega)]; simp only [hn]; rw [dataReg_eq_some]; exact ⟨by simp only [Buf.window]; omega, by rw [Nat.add_sub_cancel_left]⟩
    · rw [hreg 4 (by omega)]; simp only [hn]; rw [dataReg_eq_some]; exact ⟨by simp only [Buf.window]; omega, by rw [Nat.add_sub_cancel_left]⟩
  | _ => rfl

/-- A number that names a register is that register's number. -/
theorem number_of_regOf (a : RegNum) (r : Reg) (h : regOf a = some r) : r.mapped = true ∧ r.number = a := by
  have ha := a.isLt
  have data : ∀ b i, dataReg b i = some r → a.toNat = b.base + i → r.mapped = true ∧ r.number = a := by
    intro b i hd hb
    obtain ⟨hi, rfl⟩ := (dataReg_eq_some b i r).mp hd
    exact ⟨by simpa [Reg.mapped] using hi, BitVec.eq_of_toNat_eq (by rw [number_data_toNat b i hi, hb])⟩
  unfold regOf at h
  split at h
  · split at h <;>
      first
        | (simp only [Option.some.injEq] at h; subst h; exact ⟨rfl, BitVec.eq_of_toNat_eq (by simp [Reg.number, *])⟩)
        | simp at h
  · exact data _ _ h (by simp only [Buf.base]; omega)
  · exact data _ _ h (by simp only [Buf.base]; omega)
  · exact data _ _ h (by simp only [Buf.base]; omega)
  · exact data _ _ h (by simp only [Buf.base]; omega)
  · exact data _ _ h (by simp only [Buf.base]; omega)
  · simp at h

/-! ## Writes -/

/-- A host write by the register it names. -/
theorem acceptWrite_number (cfg : Config) (s : State) (r : Reg) (v : Word64) (h : r.mapped = true) :
    acceptWrite cfg s r.number v =
      if r.writable = false then .error .noHostWrite
      else if 2 ^ r.width ≤ v.toNat then .error .dataOutOfRange
      else writeInRange cfg s r v := by
  simp only [acceptWrite, regOf_number r h]

/-- Everything an accepted write other than a command can do: it writes one operand register whole, empties one buffer,
or appends one byte to one buffer that is not full (20_memory.md R44 to R46). -/
theorem acceptWrite_stored (cfg : Config) (s t : State) (a : RegNum) (v : Word64)
    (h : acceptWrite cfg s a v = .ok (.stored t)) :
    (a = 0x003 ∧ t = { s with timestamp := some v }) ∨
    (a = 0x004 ∧ v.toNat < 2 ^ 32 ∧ t = { s with timestep := v.setWidth 32 }) ∨
    (a = 0x005 ∧ v.toNat < 2 ^ 8 ∧ t = { s with digits := v.setWidth 8 }) ∨
    (a = 0x006 ∧ t = { s with counter := some v }) ∨
    (a = 0x007 ∧ v.toNat < 2 ^ 32 ∧ t = { s with trunc := some (v.setWidth 32) }) ∨
    (∃ b : LoadBuf, a = (Reg.len b.buf).number ∧ v = 0 ∧ t = s.setBuf b.buf []) ∨
    (∃ b : LoadBuf, a = (Reg.push b).number ∧ v.toNat < 2 ^ 8 ∧ (s.buf b.buf).length < b.buf.capacity cfg ∧
      t = s.setBuf b.buf (s.buf b.buf ++ [v.setWidth 8])) := by
  cases hr : regOf a with
  | none => simp [acceptWrite, hr] at h
  | some r =>
    obtain ⟨hm, rfl⟩ := number_of_regOf a r hr
    rw [acceptWrite_number cfg s r v hm] at h
    split at h
    · simp at h
    split at h
    · simp at h
    rename_i hw hv
    cases r with
    | cmd => simp [writeInRange] at h
    | err => simp [Reg.writable] at hw
    | valid => simp [Reg.writable] at hw
    | data b i => simp [Reg.writable] at hw
    | timestamp =>
      simp only [writeInRange, Except.ok.injEq, Accepted.stored.injEq] at h
      exact .inl ⟨rfl, h.symm⟩
    | timestep =>
      simp only [writeInRange, Except.ok.injEq, Accepted.stored.injEq, Reg.width] at h hv
      exact .inr (.inl ⟨rfl, by omega, h.symm⟩)
    | digits =>
      simp only [writeInRange, Except.ok.injEq, Accepted.stored.injEq, Reg.width] at h hv
      exact .inr (.inr (.inl ⟨rfl, by omega, h.symm⟩))
    | counter =>
      simp only [writeInRange, Except.ok.injEq, Accepted.stored.injEq] at h
      exact .inr (.inr (.inr (.inl ⟨rfl, h.symm⟩)))
    | trunc =>
      simp only [writeInRange, Except.ok.injEq, Accepted.stored.injEq, Reg.width] at h hv
      exact .inr (.inr (.inr (.inr (.inl ⟨rfl, by omega, h.symm⟩))))
    | len b =>
      have hlen : ∃ l : LoadBuf, b = l.buf := by
        cases b
        · exact ⟨.secret, rfl⟩
        · exact ⟨.key, rfl⟩
        · exact ⟨.msg, rfl⟩
        · exact ⟨.digest, rfl⟩
        · simp [Reg.writable] at hw
      obtain ⟨l, rfl⟩ := hlen
      by_cases h0 : v = 0
      · refine .inr (.inr (.inr (.inr (.inr (.inl ⟨l, rfl, h0, ?_⟩)))))
        cases l <;> simp only [writeInRange, LoadBuf.buf] at h <;> rw [if_pos h0] at h <;>
          simp only [Except.ok.injEq, Accepted.stored.injEq] at h <;> exact h.symm
      · cases l <;> simp only [writeInRange, LoadBuf.buf] at h <;> rw [if_neg h0] at h <;> simp at h
    | push l =>
      simp only [writeInRange, pushByte, Reg.width] at h hv
      split at h
      · simp only [Except.ok.injEq, Accepted.stored.injEq] at h
        exact .inr (.inr (.inr (.inr (.inr (.inr ⟨l, rfl, by omega, by assumption, h.symm⟩)))))
      · simp at h

/-- A command is run by a write to CMD and by nothing else (20_memory.md R48). -/
theorem acceptWrite_command (cfg : Config) (s : State) (a : RegNum) (v : Word64) (w : Word32)
    (h : acceptWrite cfg s a v = .ok (.command w)) : a = 0x000 ∧ v.toNat < 2 ^ 32 ∧ w = v.setWidth 32 := by
  cases hr : regOf a with
  | none => simp [acceptWrite, hr] at h
  | some r =>
    obtain ⟨hm, rfl⟩ := number_of_regOf a r hr
    rw [acceptWrite_number cfg s r v hm] at h
    split at h
    · simp at h
    split at h
    · simp at h
    rename_i hw hv
    cases r with
    | cmd =>
      simp only [writeInRange, Except.ok.injEq, Accepted.command.injEq, Reg.width] at h hv
      exact ⟨rfl, by omega, h.symm⟩
    | len b => cases b <;> simp only [writeInRange] at h <;> first | (split at h <;> simp at h) | simp at h
    | push l =>
      simp only [writeInRange, pushByte] at h
      split at h <;> simp at h
    | _ => simp [writeInRange] at h

/-- A word that is written to CMD runs to completion (20_memory.md R48). -/
theorem runWord_total (w : Word32) (s : State) : ∃ t, runWord w s = .next t := by
  unfold runWord
  split
  · exact exec_total _ s
  · exact ⟨_, rfl⟩

theorem runWord_ok (w : Word32) (i : Instr) (s : State) (h : decode w = .ok i) : runWord w s = exec i s := by
  simp only [runWord, h]

theorem runWord_illegal (w : Word32) (s : State) (h : ∀ i, decode w ≠ .ok i) :
    runWord w s = .next { s with err := 7 } := by
  cases hd : decode w with
  | ok i => exact absurd hd (h i)
  | error e => simp only [runWord, hd]; rfl

/-- Everything a host write can do (20_memory.md R41, R42, R48): fault and change nothing, store, or run a word. -/
theorem hostWrite_cases (s : State) (a : RegNum) (v : Word64) :
    (∃ f, acceptWrite Config.totpcore s a v = .error f ∧ hostWrite s a v = .next (s, .fault)) ∨
    (∃ t, acceptWrite Config.totpcore s a v = .ok (.stored t) ∧ hostWrite s a v = .next (t, .ok)) ∨
    (∃ w t, a = 0x000 ∧ v.toNat < 2 ^ 32 ∧ w = v.setWidth 32 ∧ runWord w s = .next t ∧
      hostWrite s a v = .next (t, .ok)) := by
  unfold hostWrite
  split
  · rename_i f h; exact .inl ⟨f, h, rfl⟩
  · rename_i t h; exact .inr (.inl ⟨t, h, rfl⟩)
  · rename_i w h
    obtain ⟨ha, hv, hw⟩ := acceptWrite_command _ _ _ _ _ h
    obtain ⟨t, ht⟩ := runWord_total w s
    exact .inr (.inr ⟨w, t, ha, hv, hw, ht, by simp only [ht]⟩)

theorem hostWrite_cmd (s t : State) (w : Word32) (h : runWord w s = .next t) :
    hostWrite s 0x000 (w.setWidth 64) = .next (t, .ok) := by
  have hw := w.isLt
  have hn : (w.setWidth 64).toNat = w.toNat := by
    rw [BitVec.toNat_setWidth]; omega
  have hacc : acceptWrite Config.totpcore s 0x000 (w.setWidth 64) = .ok (.command w) := by
    have := acceptWrite_number Config.totpcore s .cmd (w.setWidth 64) rfl
    rw [show Reg.cmd.number = 0x000 by rfl] at this
    rw [this, if_neg (by simp [Reg.writable]), if_neg (by rw [hn]; simp [Reg.width]; omega)]
    simp only [writeInRange]
    congr 2
    exact BitVec.eq_of_toNat_eq (by rw [BitVec.toNat_setWidth, hn]; omega)
  simp only [hostWrite, hacc, h]

/-- A host write names no script. -/
theorem hostWrite_script (s t : State) (a : RegNum) (v : Word64) (r : Resp) (h : hostWrite s a v = .next (t, r)) :
    t.script = s.script ∧ t.responses = s.responses := by
  obtain ⟨f, -, hw⟩ | ⟨u, hu, hw⟩ | ⟨w, u, -, -, -, hr, hw⟩ := hostWrite_cases s a v <;> rw [hw] at h <;>
    simp only [Host.Outcome.next.injEq, Prod.mk.injEq] at h <;> obtain ⟨rfl, -⟩ := h
  · exact ⟨rfl, rfl⟩
  · obtain ⟨-, h⟩ | ⟨-, -, h⟩ | ⟨-, -, h⟩ | ⟨-, h⟩ | ⟨-, -, h⟩ | ⟨b, -, -, h⟩ | ⟨b, -, -, -, h⟩ :=
      acceptWrite_stored _ _ _ _ _ hu <;> rw [h] <;> simp
  · unfold runWord at hr
    split at hr
    · exact exec_script _ _ _ hr
    · simp only [Host.Outcome.next.injEq] at hr; subst hr; exact ⟨rfl, rfl⟩

/-! ## Values written in range -/

/-- A value of at most 64 bits survives the trip through the 64-bit data of a transaction. -/
theorem setWidth_roundtrip (w : Nat) (v : BitVec w) (hw : w ≤ 64) :
    (v.setWidth 64).toNat = v.toNat ∧ (v.setWidth 64).setWidth w = v := by
  have h : (v.setWidth 64).toNat = v.toNat := by
    rw [BitVec.toNat_setWidth, Nat.mod_eq_of_lt (Nat.lt_of_lt_of_le v.isLt (Nat.pow_le_pow_right (by omega) hw))]
  exact ⟨h, BitVec.eq_of_toNat_eq (by rw [BitVec.toNat_setWidth, h, Nat.mod_eq_of_lt v.isLt])⟩

theorem hostWrite_of_error (s : State) (a : RegNum) (v : Word64) (f : AccessFault)
    (h : acceptWrite Config.totpcore s a v = .error f) : hostWrite s a v = .next (s, .fault) := by
  simp only [hostWrite, h]

theorem hostWrite_of_stored (s t : State) (a : RegNum) (v : Word64)
    (h : acceptWrite Config.totpcore s a v = .ok (.stored t)) : hostWrite s a v = .next (t, .ok) := by
  simp only [hostWrite, h]

/-- A write in range to a writable register of the map stores what `writeInRange` says. -/
theorem hostWrite_number (s t : State) (r : Reg) (v : Word64) (h1 : r.mapped = true) (h2 : r.writable = true)
    (h3 : v.toNat < 2 ^ r.width) (h4 : writeInRange Config.totpcore s r v = .ok (.stored t)) :
    hostWrite s r.number v = .next (t, .ok) := by
  apply hostWrite_of_stored
  rw [acceptWrite_number _ _ _ _ h1, h2, if_neg (by simp), if_neg (by omega), h4]

/-- A push in range to a buffer that is not full appends (20_memory.md R46). -/
theorem hostWrite_push (s : State) (b : LoadBuf) (x : Byte)
    (h : (s.buf b.buf).length < b.buf.capacity Config.totpcore) :
    hostWrite s (Reg.push b).number (x.setWidth 64) = .next (s.setBuf b.buf (s.buf b.buf ++ [x]), .ok) := by
  apply hostWrite_number _ _ _ _ rfl rfl
  · rw [(setWidth_roundtrip 8 x (by omega)).1]; exact x.isLt
  · simp only [writeInRange, (setWidth_roundtrip 8 x (by omega)).2, pushByte, if_pos h]

/-! ## Transactions and steps -/

theorem transact_total (x : Txn) (s : State) : ∃ t, transact x s = .next t := by
  cases x with
  | write a v =>
    obtain ⟨_, -, hw⟩ | ⟨_, -, hw⟩ | ⟨_, _, -, -, -, -, hw⟩ := hostWrite_cases s a v <;>
      exact ⟨_, by simp only [transact, hw]; rfl⟩
  | read a => exact ⟨_, rfl⟩
  | reset => exact ⟨_, rfl⟩

/-- Every step answers a next state (60_exceptions.md R140). -/
theorem step_nil (s : State) (h : s.script = []) : step s = .next s := by
  simp only [step, h]

theorem step_cons (s : State) (x : Txn) (rest : List Txn) (h : s.script = x :: rest) :
    step s = transact x { s with script := rest } := by
  simp only [step, h]

/-- A transaction leaves the rest of the script alone. -/
theorem transact_script (x : Txn) (s t : State) (h : transact x s = .next t) : t.script = s.script := by
  cases x with
  | write a v =>
    obtain ⟨f, -, hw⟩ | ⟨u, -, hw⟩ | ⟨w, u, -, -, -, -, hw⟩ := hostWrite_cases s a v <;>
      simp only [transact, hw, Host.Outcome.next.injEq] at h <;> subst h <;>
      simp [(hostWrite_script s _ a v _ hw).1]
  | read a => simp only [transact, Host.Outcome.next.injEq] at h; subst h; rfl
  | reset => simp only [transact, Host.Outcome.next.injEq] at h; subst h; rfl

end Sys2Proof.Machine
end

