-- ==== Sys2Proof/Laws/PerInstr.lean ====
section
/-! SUPPORT. A fact about every command as syntax: its word is a legal command word (30_encoding.md R61). -/

namespace Sys2Proof.Laws.EncodedWord

open Sys2Proof

/-- The word of a command has RSV 0 and an assigned OPC. -/
def Statement (i : Instr) : Prop :=
  CommandWord.wf (encode i) = true

theorem b32dec : Statement .b32dec := rfl
theorem tcnt : Statement .tcnt := rfl
theorem ctrenc : Statement .ctrenc := rfl
theorem hmac : Statement .hmac := rfl
theorem trunc : Statement .trunc := rfl
theorem fmt : Statement .fmt := rfl
theorem gen : Statement .gen := rfl
theorem clr : Statement .clr := rfl

end Sys2Proof.Laws.EncodedWord
end

