-- ==== Sys2Proof/Laws/Safety.lean ====
section
/-! SUPPORT. The invariant of the register file as a conjunction. -/

namespace Sys2Proof.Machine

open Sys2Proof

theorem State.wf_iff (cfg : Config) (s : State) : State.wf cfg s = true ↔
    s.secret.length ≤ cfg.secretMax ∧ s.key.length ≤ cfg.keyMax ∧ s.msg.length ≤ cfg.msgMax ∧ s.digest.length ≤ 20 ∧
    s.code.length ≤ cfg.digitsMax ∧ s.err.toNat ≤ 7 ∧ s.code.all isDigitChar = true := by
  simp only [State.wf, Buf.capacity, Bool.and_eq_true, and_assoc]
  constructor
  · rintro ⟨a, b, c, d, e, f, g⟩
    exact ⟨of_decide_eq_true a, of_decide_eq_true b, of_decide_eq_true c, of_decide_eq_true d, of_decide_eq_true e,
      of_decide_eq_true f, g⟩
  · rintro ⟨a, b, c, d, e, f, g⟩
    exact ⟨decide_eq_true a, decide_eq_true b, decide_eq_true c, decide_eq_true d, decide_eq_true e, decide_eq_true f, g⟩

end Sys2Proof.Machine
end

