-- ==== Sys2Proof/Laws/Script.lean ====
section
/-! SUPPORT. Laws of scripts: no transaction reads the rest of the script, scripts compose, and runs of the machine. -/

namespace Sys2Proof.Machine

open Sys2Proof

/-- A host write does not read the script. -/
theorem hostWrite_withScript (s t : State) (a : RegNum) (v : Word64) (r : Resp) (q : List Txn) (h : hostWrite s a v = .next (t, r)) :
    hostWrite { s with script := q } a v = .next ({ t with script := q }, r) := by
  have ha : acceptWrite Config.totpcore { s with script := q } a v = (match acceptWrite Config.totpcore s a v with
      | .ok (.stored u) => .ok (.stored { u with script := q }) | o => o) := by
    unfold acceptWrite
    split
    · rfl
    · split
      · rfl
      split
      · rfl
      rename_i r _ _ _
      cases r with
      | len b => cases b <;> simp only [writeInRange] <;> (try split) <;> rfl
      | push b =>
        simp only [writeInRange, pushByte]
        have : State.buf { s with script := q } b.buf = s.buf b.buf := by cases b <;> rfl
        rw [this]; split
        · cases b <;> rfl
        · rfl
      | _ => rfl
  unfold hostWrite at h ⊢
  rw [ha]
  cases hacc : acceptWrite Config.totpcore s a v with
  | error f => rw [hacc] at h; simp only [Host.Outcome.next.injEq, Prod.mk.injEq] at h ⊢; obtain ⟨rfl, rfl⟩ := h; exact ⟨rfl, rfl⟩
  | ok x =>
    rw [hacc] at h
    cases x with
    | stored u => simp only [Host.Outcome.next.injEq, Prod.mk.injEq] at h ⊢; obtain ⟨rfl, rfl⟩ := h; exact ⟨rfl, rfl⟩
    | command w =>
      simp only at h ⊢
      obtain ⟨u, hu⟩ := runWord_total w s
      rw [hu] at h
      simp only [Host.Outcome.next.injEq, Prod.mk.injEq] at h
      obtain ⟨rfl, rfl⟩ := h
      have : runWord w { s with script := q } = .next { u with script := q } := by
        unfold runWord at hu ⊢
        split at hu
        · exact exec_withScript _ _ _ _ hu
        · simp only [Host.Outcome.next.injEq] at hu; subst hu; rfl
      rw [this]

/-- No transaction reads the rest of the script. -/
theorem transact_withScript (x : Txn) (s t : State) (q : List Txn) (h : transact x s = .next t) :
    transact x { s with script := q } = .next { t with script := q } := by
  cases x with
  | write a v =>
    simp only [transact] at h ⊢
    split at h
    · rename_i u r hu
      rw [hostWrite_withScript _ _ _ _ _ q hu]
      simp only [Host.Outcome.next.injEq] at h; subst h; rfl
    · cases h
    · cases h
  | read a =>
    simp only [transact, Host.Outcome.next.injEq] at h; subst h
    have : hostRead { s with script := q } a = hostRead s a := by
      unfold hostRead acceptRead
      cases regOf a with
      | none => rfl
      | some r =>
        cases r with
        | len b => cases b <;> rfl
        | data b i => cases b <;> rfl
        | _ => rfl
    simp only [transact, this]; rfl
  | reset => simp only [transact, Host.Outcome.next.injEq] at h; subst h; rfl

/-- A script in two parts. -/
theorem runScript_append (xs ys : List Txn) (s t : State) (h : runScript xs s = .next t) : runScript (xs ++ ys) s = runScript ys t := by
  induction xs generalizing s with
  | nil => simp only [runScript, Host.Outcome.next.injEq] at h; subst h; rfl
  | cons x xs ih =>
    rw [List.cons_append, runScript]
    rw [runScript] at h
    split at h
    · exact ih _ h
    · cases h
    · cases h

theorem core_run_succ (M : Host.Core) (k : Nat) (s : M.State) :
    M.run (k + 1) s = match M.step s with
      | .next s'   => M.run k s'
      | .fault r   => .fault r
      | .refused r => .refused r := rfl

/-- One step of a run of this machine. -/
theorem run_succ (k : Nat) (s t : State) (h : step s = .next t) : core.run (k + 1) s = core.run k t := by
  have h' : core.step s = .next t := h
  rw [core_run_succ core k s]
  simp only [h']

end Sys2Proof.Machine
end

