-- ==== Sys2Proof/Laws/Sha1.lean ====
section
/-! SUPPORT. Laws of the SHA-1 core: the padding's length, the schedule's recurrence, the rounds and the chain by index. -/

namespace Sys2Proof.Machine

open Sys2Proof

theorem sha1Pad_length (m : List Byte) : (sha1Pad m).length = m.length + padZeros m.length + 9 := by
  simp [sha1Pad, be_length]; omega

/-- The padded message is a whole number of blocks (42_hmac_sha1.md R102). -/
theorem sha1Pad_length_blocks (m : List Byte) : (sha1Pad m).length = 64 * ((sha1Pad m).length / 64) := by
  rw [sha1Pad_length, padZeros]; omega

theorem sha1Words_length (block : List Byte) : (sha1Words block).length = 16 := by
  simp [sha1Words, groupsOf_length]

/-- With sixteen words or more the schedule step prepends the word of 42_hmac_sha1.md R104. -/
theorem sha1Extend_eq (l : List Word32) (h : 16 ≤ l.length) :
    sha1Extend l = rotl 1 (l[2] ^^^ l[7] ^^^ l[13] ^^^ l[15]) :: l := by
  match l, h with
  | a0 :: a1 :: a2 :: a3 :: a4 :: a5 :: a6 :: a7 :: a8 :: a9 :: a10 :: a11 :: a12 :: a13 :: a14 :: a15 :: l', _ => rfl

theorem sha1ExtendBy_succ (k : Nat) (l : List Word32) : sha1ExtendBy (k + 1) l = sha1Extend (sha1ExtendBy k l) := by
  induction k generalizing l with
  | zero => rfl
  | succ k ih => rw [sha1ExtendBy, ih, ← sha1ExtendBy]

theorem sha1ExtendBy_length (k : Nat) (l : List Word32) (h : 16 ≤ l.length) :
    (sha1ExtendBy k l).length = l.length + k := by
  induction k with
  | zero => rfl
  | succ k ih =>
    rw [sha1ExtendBy_succ, sha1Extend_eq _ (by omega), List.length_cons, ih]; omega

theorem sha1Schedule_length (block : List Byte) : (sha1Schedule block).length = 80 := by
  rw [sha1Schedule, List.length_reverse, sha1ExtendBy_length _ _ (by simp [sha1Words_length])]
  simp [sha1Words_length]

/-- The schedule after `k` steps, oldest word first. -/
def sha1Partial (block : List Byte) (k : Nat) : List Word32 := (sha1ExtendBy k (sha1Words block).reverse).reverse

theorem sha1Partial_length (block : List Byte) (k : Nat) : (sha1Partial block k).length = 16 + k := by
  rw [sha1Partial, List.length_reverse, sha1ExtendBy_length _ _ (by simp [sha1Words_length])]
  simp [sha1Words_length]

/-- One more step appends `W[t] = ROTL_1(W[t-3] ^ W[t-8] ^ W[t-14] ^ W[t-16])`. -/
theorem sha1Partial_succ (block : List Byte) (k : Nat) :
    ∃ x, sha1Partial block (k + 1) = sha1Partial block k ++ [x] ∧
      ∀ W : Nat → Word32, (∀ t < 16 + k, (sha1Partial block k)[t]? = some (W t)) →
        x = rotl 1 (W (k + 13) ^^^ W (k + 8) ^^^ W (k + 2) ^^^ W k) := by
  have hl : (sha1ExtendBy k (sha1Words block).reverse).length = 16 + k := by
    have := sha1Partial_length block k
    rwa [sha1Partial, List.length_reverse] at this
  refine ⟨_, by rw [sha1Partial, sha1ExtendBy_succ, sha1Extend_eq _ (by omega), List.reverse_cons]; rfl, ?_⟩
  intro W hW
  have key : ∀ (j : Nat) (hj : j < 16), (sha1ExtendBy k (sha1Words block).reverse)[j] = W (k + 15 - j) := by
    intro j hj
    have h := hW (k + 15 - j) (by omega)
    rw [sha1Partial, List.getElem?_reverse (by omega), hl] at h
    rw [show 16 + k - 1 - (k + 15 - j) = j by omega] at h
    exact (List.getElem?_eq_some_iff.mp h).2
  rw [key 2 (by omega), key 7 (by omega), key 13 (by omega), key 15 (by omega)]
  congr 5

theorem sha1Partial_getElem? (block : List Byte) (k k' t : Nat) (h : k ≤ k') (ht : t < 16 + k) :
    (sha1Partial block k')[t]? = (sha1Partial block k)[t]? := by
  induction k', h using Nat.le_induction with
  | base => rfl
  | succ n hn ih =>
    obtain ⟨x, hx, -⟩ := sha1Partial_succ block n
    rw [hx, List.getElem?_append_left (by rw [sha1Partial_length]; omega), ih]

/-- The first sixteen words of the schedule are the block's words (42_hmac_sha1.md R104). -/
theorem sha1Schedule_first (block : List Byte) (t : Nat) (h : t < 16) :
    (sha1Schedule block)[t]? = some (BitVec.ofNat 32 (fromBE ((block.drop (4 * t)).take 4))) := by
  have h0 := sha1Partial_getElem? block 0 64 t (by omega) (by omega)
  rw [show sha1Schedule block = sha1Partial block 64 by rfl, h0, sha1Partial, sha1ExtendBy, List.reverse_reverse,
    sha1Words, List.getElem?_map, groupsOf_getElem? _ _ _ _ h]
  rfl

/-- The later words follow the recurrence (42_hmac_sha1.md R104). -/
theorem sha1Schedule_later (block : List Byte) (W : Nat → Word32)
    (hW : ∀ t < 80, (sha1Schedule block)[t]? = some (W t)) (t : Nat) (h : 16 ≤ t) (h' : t < 80) :
    W t = rotl 1 (W (t - 3) ^^^ W (t - 8) ^^^ W (t - 14) ^^^ W (t - 16)) := by
  obtain ⟨k, rfl⟩ : ∃ k, t = k + 16 := ⟨t - 16, by omega⟩
  have hP : ∀ j, j ≤ 64 → ∀ u < 16 + j, (sha1Partial block j)[u]? = some (W u) := by
    intro j hj u hu
    rw [← sha1Partial_getElem? block j 64 u hj hu]
    exact hW u (by omega)
  obtain ⟨x, hx, hval⟩ := sha1Partial_succ block k
  have h1 := hP (k + 1) (by omega) (k + 16) (by omega)
  have hlen := sha1Partial_length block k
  rw [hx, List.getElem?_append_right (by omega), hlen, show k + 16 - (16 + k) = 0 by omega] at h1
  have h2 : x = W (k + 16) := by simpa using h1
  rw [← h2, hval W (hP k (by omega))]
  congr 5

theorem sha1Rounds_append (ws : List Word32) (w : Word32) (t : Nat) (h : Words5) :
    sha1Rounds t (ws ++ [w]) h = sha1Round (t + ws.length) w (sha1Rounds t ws h) := by
  induction ws generalizing t h with
  | nil => rfl
  | cons x ws ih =>
    rw [List.cons_append, sha1Rounds, ih, sha1Rounds, List.length_cons]
    congr 1; omega

/-- The working words before round `t + 1` are round `t` of those before it. -/
theorem sha1Rounds_take_succ (ws : List Word32) (h : Words5) (t : Nat) (w : Word32) (hw : ws[t]? = some w) :
    sha1Rounds 0 (ws.take (t + 1)) h = sha1Round t w (sha1Rounds 0 (ws.take t) h) := by
  obtain ⟨ht, rfl⟩ := List.getElem?_eq_some_iff.mp hw
  rw [List.take_succ_eq_append_getElem ht, sha1Rounds_append, List.length_take, Nat.zero_add, Nat.min_eq_left (by omega)]

/-- The chaining value after `k + 1` blocks is block `k` of the one after `k`. -/
theorem sha1Chain_take_succ (bs : List (List Byte)) (h : Words5) (k : Nat) (b : List Byte) (hb : bs[k]? = some b) :
    (bs.take (k + 1)).foldl sha1Block h = sha1Block ((bs.take k).foldl sha1Block h) b := by
  obtain ⟨hk, rfl⟩ := List.getElem?_eq_some_iff.mp hb
  rw [List.take_succ_eq_append_getElem hk, List.foldl_append]
  rfl

end Sys2Proof.Machine
end

