-- ==== Sys2Proof/Laws/Truncator.lean ====
section
/-! SUPPORT. Laws of the dynamic truncator: its result as a number. -/

namespace Sys2Proof.Machine

open Sys2Proof

/-- `Truncate` as arithmetic on the four bytes of the window (43_dynamic_truncator.md R120). -/
theorem truncate_toNat (d : List Byte) (h : d.length = 20) :
    ∃ (_ : truncOffset d h ≤ 15), (truncate d h).toNat =
      (d[truncOffset d h]'(by omega)).toNat % 128 * 2 ^ 24 + (d[truncOffset d h + 1]'(by omega)).toNat * 2 ^ 16 +
      (d[truncOffset d h + 2]'(by omega)).toNat * 2 ^ 8 + (d[truncOffset d h + 3]'(by omega)).toNat := by
  have ho := truncOffset_le d h
  refine ⟨ho, ?_⟩
  have e : truncate d h = (((((d[truncOffset d h]'(by omega)) &&& 0x7F).setWidth 32) <<< 24) |||
    (((d[truncOffset d h + 1]'(by omega)).setWidth 32) <<< 16) |||
    (((d[truncOffset d h + 2]'(by omega)).setWidth 32) <<< 8) |||
    ((d[truncOffset d h + 3]'(by omega)).setWidth 32)) := rfl
  rw [e]
  generalize (d[truncOffset d h]'(by omega)) = a
  generalize (d[truncOffset d h + 1]'(by omega)) = b
  generalize (d[truncOffset d h + 2]'(by omega)) = c
  generalize (d[truncOffset d h + 3]'(by omega)) = f
  have ha := a.isLt
  have hb := b.isLt
  have hc := c.isLt
  have hf := f.isLt
  have h7 : (a &&& 0x7F).toNat = a.toNat % 128 := by
    rw [BitVec.toNat_and, show (0x7F : Byte).toNat = 2 ^ 7 - 1 by rfl, Nat.and_two_pow_sub_one_eq_mod]
  simp only [BitVec.toNat_or, BitVec.toNat_shiftLeft, BitVec.toNat_setWidth, h7, Nat.shiftLeft_eq]
  rw [Nat.mod_eq_of_lt (a := a.toNat % 128) (by omega), Nat.mod_eq_of_lt (a := b.toNat) (by omega),
    Nat.mod_eq_of_lt (a := c.toNat) (by omega), Nat.mod_eq_of_lt (a := f.toNat) (by omega),
    Nat.mod_eq_of_lt (a := a.toNat % 128 * 2 ^ 24) (by omega), Nat.mod_eq_of_lt (a := b.toNat * 2 ^ 16) (by omega),
    Nat.mod_eq_of_lt (a := c.toNat * 2 ^ 8) (by omega)]
  have s1 := Nat.two_pow_add_eq_or_of_lt (i := 24) (b := b.toNat * 2 ^ 16) (by omega) (a.toNat % 128)
  have s2 := Nat.two_pow_add_eq_or_of_lt (i := 16) (b := c.toNat * 2 ^ 8) (by omega) (a.toNat % 128 * 2 ^ 8 + b.toNat)
  have s3 := Nat.two_pow_add_eq_or_of_lt (i := 8) (b := f.toNat) (by omega)
    (a.toNat % 128 * 2 ^ 16 + b.toNat * 2 ^ 8 + c.toNat)
  rw [Nat.mul_comm (a.toNat % 128) (2 ^ 24), ← s1,
    show 2 ^ 24 * (a.toNat % 128) + b.toNat * 2 ^ 16 = 2 ^ 16 * (a.toNat % 128 * 2 ^ 8 + b.toNat) by ring, ← s2,
    show 2 ^ 16 * (a.toNat % 128 * 2 ^ 8 + b.toNat) + c.toNat * 2 ^ 8 =
      2 ^ 8 * (a.toNat % 128 * 2 ^ 16 + b.toNat * 2 ^ 8 + c.toNat) by ring, ← s3]

/-- Bit 31 is clear (43_dynamic_truncator.md R120). -/
theorem truncate_lt (d : List Byte) (h : d.length = 20) : (truncate d h).toNat < 2 ^ 31 := by
  obtain ⟨ho, hn⟩ := truncate_toNat d h
  rw [hn]
  have h1 := (d[truncOffset d h + 1]'(by omega)).isLt
  have h2 := (d[truncOffset d h + 2]'(by omega)).isLt
  have h3 := (d[truncOffset d h + 3]'(by omega)).isLt
  omega

end Sys2Proof.Machine
end

