-- ==== Sys2Proof/Tests/Slice0.lean ====
section
/-! SUPPORT. The model's own tests. Expected values are those of 95_test_vectors.md (named V-…) or worked out by hand from
the rule named; the last part shows, for each statement with hypotheses, states and operands that meet them. -/

namespace Sys2Proof.Tests

open Sys2Proof Sys2Proof.Machine

/-! ## Helpers -/

/-- The character codes of a text. -/
def str (s : String) : List Byte := s.toList.map fun c => BitVec.ofNat 8 c.toNat

/-- The outcome is a next state with this property. -/
def nextIs (o : Host.Outcome State Fault Refusal) (p : State → Bool) : Bool :=
  match o with
  | .next t => p t
  | _       => false

/-- The host write is answered `r` and leaves a state with this property. -/
def writeIs (o : Host.Outcome (State × Resp) Fault Refusal) (r : Resp) (p : State → Bool) : Bool :=
  match o with
  | .next (t, r') => decide (r' = r) && p t
  | _             => false

/-- `V-GEN-3`'s operands with digit count `n`. -/
def known (n : Byte) : State :=
  { State.reset with secret := str "JBSWY3DPEHPK3PXP", timestamp := some 59, digits := n }

/-- A state with something in every item. -/
def full : State where
  timestamp := some 59
  timestep  := 30
  digits    := 6
  counter   := some 1
  trunc     := some 7
  err       := 3
  secret    := str "MY"
  key       := [0x66]
  msg       := [1, 2, 3]
  digest    := List.replicate 20 0xFF
  code      := str "42"
  script    := [.read 0x001]
  responses := [.ok]

/-! ## Well-formedness: one ill-formed term for each check -/

theorem test_wf_refuses_reserved_bits : CommandWord.wf 0x00000107 = false := by decide
theorem test_wf_refuses_top_bit : CommandWord.wf 0x80000007 = false := by decide
theorem test_wf_refuses_opcode_zero : CommandWord.wf 0x00000000 = false := by decide
theorem test_wf_refuses_opcode_nine : CommandWord.wf 0x00000009 = false := by decide
theorem test_wf_accepts_gen : CommandWord.wf 0x00000007 = true ∧ Instr.wf .gen = true := by decide

theorem test_config_of_this_hardware_legal : Config.totpcore.legal = true := by decide

theorem test_config_refuses_secretMax :
    ({ Config.totpcore with secretMax := 0 } : Config).legal = false ∧
    ({ Config.totpcore with secretMax := 257, keyMax := 256 } : Config).legal = false := by decide

theorem test_config_refuses_keyMax :
    ({ Config.totpcore with keyMax := 159 } : Config).legal = false ∧
    ({ Config.totpcore with keyMax := 257 } : Config).legal = false := by decide

theorem test_config_refuses_msgMax :
    ({ Config.totpcore with msgMax := 7 } : Config).legal = false ∧
    ({ Config.totpcore with msgMax := 257 } : Config).legal = false := by decide

theorem test_config_refuses_digitsMax :
    ({ Config.totpcore with digitsMax := 0 } : Config).legal = false ∧
    ({ Config.totpcore with digitsMax := 11 } : Config).legal = false := by decide

theorem test_state_wf_refuses_long_code :
    ({ State.reset with code := List.replicate 11 0x30 } : State).wf Config.totpcore = false := by decide
theorem test_state_wf_refuses_err_eight : ({ State.reset with err := 8 } : State).wf Config.totpcore = false := by decide
theorem test_state_wf_refuses_letter_in_code :
    ({ State.reset with code := [0x41] } : State).wf Config.totpcore = false := by decide
theorem test_state_wf_refuses_long_buffers :
    ({ State.reset with secret := List.replicate 257 0 } : State).wf Config.totpcore = false ∧
    ({ State.reset with key := List.replicate 161 0 } : State).wf Config.totpcore = false ∧
    ({ State.reset with msg := List.replicate 129 0 } : State).wf Config.totpcore = false ∧
    ({ State.reset with digest := List.replicate 21 0 } : State).wf Config.totpcore = false := by decide +kernel

/-! ## Decoding: RSV in bits 31:8, OPC in bits 7:0 (30_encoding.md R60, R61) -/

theorem test_decode_b32dec : decodeTableWord 32 0b00000000000000000000000000000001 = some .b32dec := by decide
theorem test_decode_tcnt : decodeTableWord 32 0b00000000000000000000000000000010 = some .tcnt := by decide
theorem test_decode_ctrenc : decodeTableWord 32 0b00000000000000000000000000000011 = some .ctrenc := by decide
theorem test_decode_hmac : decodeTableWord 32 0b00000000000000000000000000000100 = some .hmac := by decide
theorem test_decode_trunc : decodeTableWord 32 0b00000000000000000000000000000101 = some .trunc := by decide
theorem test_decode_fmt : decodeTableWord 32 0b00000000000000000000000000000110 = some .fmt := by decide
theorem test_decode_gen : decodeTableWord 32 0b00000000000000000000000000000111 = some .gen := by decide
theorem test_decode_clr : decodeTableWord 32 0b00000000000000000000000000001000 = some .clr := by decide

theorem test_decode_rejects_by_name :
    (match decode 0x00000009 with | .error .unassignedOpcode => true | _ => false) = true ∧
    (match decode 0x00000000 with | .error .unassignedOpcode => true | _ => false) = true ∧
    (match decode 0x00000107 with | .error .reservedBitsSet => true | _ => false) = true ∧
    (match decode 0xFFFFFFFF with | .error .reservedBitsSet => true | _ => false) = true := by decide

/-- V-DEC-2: GEN's OPC with RSV = 1 is no table word either. -/
theorem test_decodeTableWord_counts_all_bits :
    decodeTableWord 32 0x107 = none ∧ decodeTableWord 64 0x100000007 = none := by decide

/-- The very next step runs the placed word. -/
theorem test_step_runs_placed_word :
    nextIs (step (State.reset.withFetchWord 32 0x00000007)) (fun t => t.err == 6 && t.responses == [.ok]) = true := by
  decide

/-! ## Base32 and B32DEC -/

/-- V-B32-1. -/
theorem test_b32dec_known :
    nextIs (exec .b32dec { State.reset with secret := str "JBSWY3DPEHPK3PXP", err := 5 })
      (fun t => t.key == [0x48, 0x65, 0x6c, 0x6c, 0x6f, 0x21, 0xde, 0xad, 0xbe, 0xef] && t.err == 0) = true := by
  decide +kernel

/-- V-B32-34: an invalid character after valid ones leaves no partial key. -/
theorem test_b32dec_late_invalid :
    nextIs (exec .b32dec { State.reset with secret := str "MZXW6YT1", key := [1, 2] })
      (fun t => t.key == [] && t.err == 1 && t.secret == str "MZXW6YT1") = true := by decide +kernel

/-- V-B32-15, V-B32-17, V-B32-20, V-B32-6: pads anywhere, left-over bits dropped, less than a byte. -/
theorem test_b32Decode_corners :
    (b32Decode (str "MZ=XW6==YTBOI")).toOption = some (str "foobar") ∧
    (b32Decode (str "m7")).toOption = some [0x67] ∧
    (b32Decode (str "AB=CD")).toOption = some [0x00, 0x44] ∧
    (b32Decode (str "A")).toOption = some [] := by decide +kernel

/-- V-B32-37 to V-B32-39: the codes next to the alphabet are invalid. -/
theorem test_b32Class_neighbours :
    ([0x40, 0x5B, 0x60, 0x7B, 0x31, 0x38, 0x3C, 0x3E, 0x00, 0xC1].all fun c => b32Class c == .invalid) = true := by
  decide

/-- RFC 4648 section 10 as 95_test_vectors.md section 2.1 quotes it. -/
theorem test_b32Encode_foobar :
    b32Encode (str "foobar") true = str "MZXW6YTBOI======" ∧ b32Encode (str "foob") false = str "MZXW6YQ" := by
  decide +kernel

/-! ## TCNT and CTRENC -/

/-- V-TC-9: the quotient needs 33 bits. -/
theorem test_tcnt_wide :
    nextIs (exec .tcnt { State.reset with timestamp := some 0xFFFFFFFFFFFFFFFF, timestep := 0xFFFFFFFF })
      (fun t => t.counter == some 0x100000001 && t.err == 0) = true := by decide +kernel

/-- V-TC-13: the operand check comes first. -/
theorem test_tcnt_priority :
    nextIs (exec .tcnt { State.reset with timestep := 0, counter := some 5 })
      (fun t => t.counter == none && t.err == 6 && t.timestep == 0) = true := by decide

/-- V-CE-4. -/
theorem test_ctrenc_big_endian :
    nextIs (exec .ctrenc { State.reset with counter := some 0x01020304, msg := [9] })
      (fun t => t.msg == [0, 0, 0, 0, 1, 2, 3, 4] && t.err == 0) = true := by decide

/-- V-CE-6, V-CE-10, V-CE-11. -/
theorem test_ctrenc_modes :
    nextIs (exec .ctrenc { State.reset with counter := some 0x100000000, msg := [9] })
      (fun t => t.msg == [] && t.err == 2 && t.counter == some 0x100000000) = true ∧
    (ctrenc { Config.totpcore with ctrMode := .wide64 } { State.reset with counter := some 0x0102030405060708 }).msg
      = [1, 2, 3, 4, 5, 6, 7, 8] ∧
    (ctrenc { Config.totpcore with ctrMode := .trunc32 } { State.reset with counter := some 0x0102030405060708 }).msg
      = [0, 0, 0, 0, 5, 6, 7, 8] := by decide

/-! ## SHA-1 and HMAC -/

/-- V-SHA-1, V-SHA-3 (two blocks). -/
theorem test_sha1_vectors :
    fromBE (sha1 (str "abc")) = 0xa9993e364706816aba3e25717850c26c9cd0d89d ∧
    fromBE (sha1 (str "abcdbcdecdefdefgefghfghighijhijkijkljklmklmnlmnomnopnopq"))
      = 0x84983e441c3bd26ebaae4aa1f95129e5e54670f1 := by decide +kernel

/-- V-HM-2. -/
theorem test_hmac_jefe :
    nextIs (exec .hmac { full with key := str "Jefe", msg := str "what do ya want for nothing?" })
      (fun t => fromBE t.digest == 0xeffcdf6ae5eb2fa2d27416d5f184df9c259a7c79 && t.err == 0 && t.trunc == some 7)
      = true := by decide +kernel

/-- V-HM-10 and V-HM-11: 64 key bytes are used as they are, 65 are hashed first. -/
theorem test_hmac_key_boundary :
    fromBE (hmacSha1 ((List.range 64).map (BitVec.ofNat 8)) (str "Sample #1"))
      = 0x4f4ca3d5d68ba7cc0a1208c9c61e9c5da0403c0a ∧
    fromBE (hmacSha1 ((List.range 65).map (BitVec.ofNat 8)) (str "abc"))
      = 0x7636c08e7b7c0f0c391ca01d34ef4208399fbcf8 := by decide +kernel

/-! ## TRUNC and FMT -/

/-- V-TR-6: offset 15, the upper nibble of the last byte ignored. -/
theorem test_trunc_offset_fifteen :
    nextIs (exec .trunc { State.reset with
        digest := [0x10, 0x11, 0x12, 0x13, 0x14, 0x15, 0x16, 0x17, 0x18, 0x19, 0x1a, 0x1b, 0x1c, 0x1d, 0x1e,
                   0x1f, 0x20, 0x21, 0x22, 0xef] })
      (fun t => t.trunc == some 0x1F202122 && t.err == 0) = true := by decide +kernel

/-- V-TR-9: one byte short; and V-TR-2: the top bit of the window is masked. -/
theorem test_trunc_short_and_mask :
    nextIs (exec .trunc { State.reset with digest := List.replicate 19 0, trunc := some 1 })
      (fun t => t.trunc == none && t.err == 6) = true ∧
    nextIs (exec .trunc full) (fun t => t.trunc == some 0x7FFFFFFF && t.err == 0) = true := by decide +kernel

/-- V-FM-1, V-FM-8: zero padding; a value with bit 31 set is unsigned. -/
theorem test_fmt_padding_and_unsigned :
    nextIs (exec .fmt { State.reset with trunc := some 7 }) (fun t => t.code == str "000007" && t.err == 0) = true ∧
    nextIs (exec .fmt { State.reset with trunc := some 4294967295 }) (fun t => t.code == str "967295") = true := by
  decide +kernel

/-- V-FM-7, V-FM-14, V-FM-17: ten digits, eleven digits, the operand check first. -/
theorem test_fmt_digit_count :
    nextIs (exec .fmt { State.reset with trunc := some 7, digits := 10 }) (fun t => t.code == str "0000000007") = true ∧
    nextIs (exec .fmt { full with digits := 11 }) (fun t => t.code == [] && t.err == 3 && t.trunc == some 7) = true ∧
    nextIs (exec .fmt { State.reset with digits := 0 }) (fun t => t.err == 6) = true := by decide +kernel

/-! ## GEN and CLR -/

/-- V-SRC-3: all six results. -/
theorem test_gen_known :
    nextIs (exec .gen (known 6)) (fun t =>
      t.counter == some 1 && t.key == [0x48, 0x65, 0x6c, 0x6c, 0x6f, 0x21, 0xde, 0xad, 0xbe, 0xef] &&
      t.msg == [0, 0, 0, 0, 0, 0, 0, 1] && fromBE t.digest == 0x853f79b6650a9e3c5a81f179a209253bcbbe7402 &&
      t.trunc == some 2041996554 && t.code == str "996554" && t.err == 0 && t.timestamp == some 59) = true := by
  decide +kernel

/-- V-GEN-5: step 3 before step 6, and every result of the earlier call is cleared. -/
theorem test_gen_error_clears :
    nextIs (exec .gen { full with secret := str "JBSWY3DPEHPK3PXP", timestep := 1, digits := 0,
                                  timestamp := some 0x100000000 })
      (fun t => t.err == 2 && t.counter == none && t.key == [] && t.msg == [] && t.digest == [] && t.trunc == none
        && t.code == [] && t.digits == 0 && t.timestep == 1) = true := by decide +kernel

/-- V-CLR-1 and the reset transaction. -/
theorem test_clr_and_reset :
    nextIs (exec .clr full) (fun t => t == { State.reset with script := full.script, responses := full.responses }) = true ∧
    hostReset full = { State.reset with script := full.script, responses := full.responses } := by decide

/-! ## The host port -/

/-- V-ACC-1 to V-ACC-14 from the reset state. -/
theorem test_access_faults :
    writeIs (hostWrite State.reset 0x001 0) .fault (· == State.reset) = true ∧
    writeIs (hostWrite State.reset 0x008 5) .fault (· == State.reset) = true ∧
    writeIs (hostWrite State.reset 0x100 1) .fault (· == State.reset) = true ∧
    writeIs (hostWrite State.reset 0x005 0x100) .fault (· == State.reset) = true ∧
    writeIs (hostWrite State.reset 0x000 0x100000000) .fault (· == State.reset) = true ∧
    writeIs (hostWrite State.reset 0x010 0) .fault (· == State.reset) = true ∧
    writeIs (hostWrite State.reset 0x004 0x100000000) .fault (· == State.reset) = true ∧
    ([0x000, 0x003, 0x009, 0x100, 0x011, 0x414, 0x50A, 0xFFF].all fun a => hostRead State.reset a == .fault) = true := by
  decide

/-- V-ACC-13, V-ACC-18. -/
theorem test_access_ok :
    writeIs (hostWrite State.reset 0x003 0xFFFFFFFFFFFFFFFF) .ok (fun t => t.timestamp == some 0xFFFFFFFFFFFFFFFF) = true ∧
    hostRead State.reset 0x004 = .value 30 ∧ hostRead State.reset 0x005 = .value 6 ∧
    ([0x001, 0x002, 0x008, 0x00A, 0x00C, 0x00E, 0x010].all fun a => hostRead State.reset a == .value 0) = true := by
  decide

/-- V-ACC-15: the twentieth push is accepted, the twenty-first faults. -/
theorem test_push_capacity :
    writeIs (hostWrite { State.reset with digest := List.replicate 19 1 } 0x00F 0xAB) .ok
      (fun t => t.digest == List.replicate 19 1 ++ [0xAB]) = true ∧
    writeIs (hostWrite { State.reset with digest := List.replicate 20 1 } 0x00F 0xAB) .fault
      (fun t => t.digest == List.replicate 20 1) = true := by decide

/-- V-DEC-1 to V-DEC-4: ERR is 7, the response `OK`, nothing else. -/
theorem test_illegal_words :
    ([0x009, 0x107, 0x000, 0xFFFFFFFF].all fun w =>
      writeIs (hostWrite full 0x000 w) .ok (· == { full with err := 7 })) = true := by decide

/-- 10_state.md R23: a full state shows all three flags; data registers end where the buffer does. -/
theorem test_valid_and_data :
    hostRead full 0x002 = .value 7 ∧ hostRead full 0x300 = .value 1 ∧ hostRead full 0x302 = .value 3 ∧
    hostRead full 0x303 = .fault ∧ hostRead full 0x501 = .value 0x32 ∧ hostRead full 0x413 = .value 0xFF := by decide

/-- A step issues one transaction, records its response and keeps the rest of the script; without a transaction it
changes nothing. -/
theorem test_step_transactions :
    nextIs (step { full with script := [.read 0x001, .reset] })
      (· == { full with script := [.reset], responses := [.value 3, .ok] }) = true ∧
    nextIs (step { full with script := [] }) (· == { full with script := [] }) = true := by decide

/-- P3 line 24 of 95_test_vectors.md: the whole sequence from reset ends in the code of timestamp 60. -/
theorem test_totp_sequence :
    nextIs (runScript (totp (str "jbswy3dpehpk3pxp") 60 none none) State.reset)
      (fun t => t.code == str "602287" && t.responses.head? == some (.value 0)) = true := by decide +kernel

/-! ## Witnesses: the hypotheses of each statement are met, each clause at the ends of its range -/

theorem witness_DecodeAndEncodeAreInverse :
    Instr.wf .clr = true ∧ decode 0x00000001 = .ok .b32dec ∧ decode 0x00000008 = .ok .clr := ⟨rfl, rfl, rfl⟩

theorem witness_IllegalWordSetsErrSevenOnly :
    (0x00000000 : Word32).toNat = 0 ∧ 9 ≤ (0x00000009 : Word32).toNat ∧ 9 ≤ (0xFFFFFFFF : Word32).toNat := by decide

theorem witness_StepRunsTheDecodedCommand :
    (full.withFetchWord 32 7).script = .write 0x000 ((7 : Word32).setWidth 64) :: [.read 0x001] ∧ decode 7 = .ok .gen ∧
    exec .gen { full.withFetchWord 32 7 with script := [.read 0x001] } = .next (gen Config.totpcore full) :=
  ⟨rfl, rfl, rfl⟩

theorem witness_ResetAndClearLeaveTheResetState :
    hostReset full = hostReset full ∧ transact .reset full = .next (hostReset full) ∧ exec .clr full = .next (clr full) ∧ full ≠ State.reset := by
  refine ⟨rfl, rfl, rfl, by decide⟩

theorem witness_ClearCompletesInTheResetState : atReset State.reset := fun _ => rfl

theorem witness_B32decDecodesSecretIntoKey :
    b32HasInvalid State.reset.secret = false ∧ b32HasInvalid full.secret = false ∧
    b32HasInvalid ({ full with secret := str "12345678!" } : State).secret = true := by decide +kernel

theorem witness_Base32DecodeLength :
    (∃ out, b32Decode (List.replicate 256 0x41) = .ok out) ∧
    Config.totpcore.legal = true ∧ (List.replicate 256 (0x41 : Byte)).length ≤ Config.totpcore.secretMax ∧
    b32Class 0x37 = .val 31 := by
  refine ⟨?_, by decide, by decide +kernel, by decide⟩
  have h : (b32Decode (List.replicate 256 0x41)).toOption.isSome = true := by decide +kernel
  cases hd : b32Decode (List.replicate 256 0x41) with
  | ok out => exact ⟨out, rfl⟩
  | error e => rw [hd] at h; cases h

theorem witness_Base32DecodeIgnoresCaseAndPadding :
    List.Forall₂ (fun c d : Byte => d = c ∨ d = otherCase c) (str "mZ3=") (str "Mz3=") := by
  have h : str "mZ3=" = [0x6D, 0x5A, 0x33, 0x3D] ∧ str "Mz3=" = [0x4D, 0x7A, 0x33, 0x3D] := by decide +kernel
  rw [h.1, h.2]
  exact .cons (.inr (by decide)) (.cons (.inr (by decide)) (.cons (.inl rfl) (.cons (.inl rfl) .nil)))

theorem witness_Base32DecodePrefixMonotone : b32Decode ([0x4D, 0x5A] ++ [0x58, 0x51]) = .ok [0x66, 0x6F] := by rfl

theorem witness_TcntDividesTimestampByTimestep :
    State.reset.timestamp = none ∧
    (full.timestamp = some 59 ∧ ({ full with timestep := 0 } : State).timestep = 0) ∧
    (full.timestamp = some 59 ∧ full.timestep ≠ 0) := by decide

theorem witness_CtrencEncodesCounterBigEndian :
    State.reset.counter = none ∧
    (Config.totpcore.ctrMode = .fault32 ∧ 2 ^ 32 ≤ (0x100000000 : Word64).toNat) ∧
    (Config.totpcore.ctrMode = .fault32 ∧ (0xFFFFFFFF : Word64).toNat < 2 ^ 32) ∧
    ({ Config.totpcore with ctrMode := .trunc32 } : Config).ctrMode = .trunc32 ∧
    ({ Config.totpcore with ctrMode := .wide64 } : Config).ctrMode = .wide64 := by decide

theorem witness_CounterModesAgreeBelowTwoToThe32 :
    (0xFFFFFFFF : Word64).toNat < 2 ^ 32 ∧
    (0x05060708 : Word64).toNat = (0x0102030405060708 : Word64).toNat % 2 ^ 32 ∧
    (CtrMode.wide64 ≠ .trunc32 ∧ counterEncode .wide64 1 = .ok [0, 0, 0, 0, 0, 0, 0, 1]) ∧
    (CtrMode.fault32 ≠ .trunc32 ∧ counterEncode .fault32 1 = .ok [0, 0, 0, 0, 0, 0, 0, 1]) :=
  ⟨by decide, by decide, ⟨by decide, rfl⟩, ⟨by decide, rfl⟩⟩

theorem witness_BigEndianAndRotateNotation :
    be 2 0x0102 = [0x01, 0x02] ∧ 0xFFFF < 2 ^ (8 * 2) ∧ 0 < 2 ^ (8 * 0) ∧ 1 < 2 ∧ rotl 1 0x80000001 = 0x00000003 ∧
    rotl 31 0x00000001 = 0x80000000 := by decide

theorem witness_Sha1RoundFunctionsAndConstants :
    sha1K 0 = 0x5A827999 ∧ sha1K 19 = 0x5A827999 ∧ sha1K 20 = 0x6ED9EBA1 ∧ sha1K 39 = 0x6ED9EBA1 ∧
    sha1K 40 = 0x8F1BBCDC ∧ sha1K 59 = 0x8F1BBCDC ∧ sha1K 60 = 0xCA62C1D6 ∧ sha1K 79 = 0xCA62C1D6 := by decide

theorem witness_Sha1MeetsItsContract : ([] : List Byte).length < 2 ^ 61 := by decide

theorem witness_Sha1BeyondItsDomainWrapsTheLength : 2 ^ 61 ≤ (List.replicate (2 ^ 61) (0x00 : Byte)).length :=
  Nat.le_of_eq List.length_replicate.symm

theorem witness_HmacConstruction :
    64 < (List.replicate 65 (0x00 : Byte)).length ∧ (List.replicate 64 (0x00 : Byte)).length ≤ 64 ∧
    ([] : List Byte).length ≤ 64 := by decide

theorem witness_HmacKeyEquivalences :
    ([] : List Byte).length + 64 ≤ 64 ∧ (List.replicate 63 (0x0B : Byte)).length + 1 ≤ 64 ∧
    64 < (List.replicate 65 (0x00 : Byte)).length := by decide

theorem witness_TruncExtractsTheMaskedWindow :
    (full.digest.length = 20 ∧ full.digest[19]? = some 0xFF) ∧
    State.reset.digest.length ≠ 20 ∧ ({ full with digest := List.replicate 19 0 } : State).digest.length ≠ 20 := by
  decide

theorem witness_TruncateReadsTheMaskedWindowOnly :
    (List.replicate 20 (0xFF : Byte)).length = 20 ∧ (List.replicate 20 (0xFF : Byte))[19]? = some 0xFF ∧
    truncOffset (List.replicate 20 0x00) (by decide) =
      truncOffset (List.replicate 19 0x00 ++ [0xF0]) (by decide) ∧
    truncOffset (List.replicate 20 0xFF) (by decide) = 15 := by decide

theorem witness_FmtFormatsTruncInDecimal :
    State.reset.trunc = none ∧
    (full.trunc = some 7 ∧ ({ full with digits := 0 } : State).digits.toNat = 0) ∧
    Config.totpcore.digitsMax < ({ full with digits := 11 } : State).digits.toNat ∧
    (1 ≤ ({ full with digits := 1 } : State).digits.toNat ∧ (1 : Byte).toNat ≤ Config.totpcore.digitsMax) ∧
    ({ full with digits := 10 } : State).digits.toNat ≤ Config.totpcore.digitsMax := by decide

theorem witness_FormatArithmeticLaws :
    format 10 2147483647 10 = .ok [0x32, 0x31, 0x34, 0x37, 0x34, 0x38, 0x33, 0x36, 0x34, 0x37] ∧
    (1 : Byte).toNat < (10 : Byte).toNat ∧ format 10 2147483647 1 = .ok [0x37] ∧ (10 : Byte).toNat = 10 ∧
    (2147483647 : Word32).toNat < 2 ^ 31 ∧ (1000006 : Word32).toNat % 10 ^ 6 = (6 : Word32).toNat % 10 ^ 6 :=
  ⟨rfl, by decide, rfl, by decide, by decide, by decide⟩

/-- One state for each of the seven cases. -/
theorem witness_GenRunsThePipeline :
    let s := known 6
    State.reset.timestamp = none ∧ s.timestamp = some 59 ∧
    ({ s with timestep := 0 } : State).timestep = 0 ∧
    (s.timestep ≠ 0 ∧ b32HasInvalid (str "12345678!") = true) ∧
    (b32HasInvalid (str "A") = false ∧ b32Closed (b32Values (str "A")) = []) ∧
    (b32HasInvalid s.secret = false ∧ b32Closed (b32Values s.secret) ≠ [] ∧ Config.totpcore.ctrMode = .fault32 ∧
      2 ^ 32 ≤ (0x100000000 : Word64).toNat / (1 : Word32).toNat) ∧
    ((59 : Word64).toNat / s.timestep.toNat < 2 ^ 32 ∧ ({ s with digits := 0 } : State).digits.toNat = 0 ∧
      Config.totpcore.digitsMax < ({ s with digits := 11 } : State).digits.toNat) ∧
    (1 ≤ s.digits.toNat ∧ s.digits.toNat ≤ Config.totpcore.digitsMax) := by decide +kernel

theorem witness_GenerateSuccessShape :
    ∃ g, generate Config.totpcore (known 6).secret 59 30 6 = .ok g := by
  have h : (generate Config.totpcore (known 6).secret 59 30 6).toOption.isSome = true := by decide +kernel
  cases hg : generate Config.totpcore (known 6).secret 59 30 6 with
  | ok g => exact ⟨g, rfl⟩
  | error e => rw [hg] at h; cases h

theorem witness_GenEqualsTheUnitCommands :
    exec .gen (known 6) = .next (gen Config.totpcore (known 6)) ∧ (gen Config.totpcore (known 6)).err = 0 :=
  ⟨rfl, by decide +kernel⟩

theorem witness_GenDependsOnTheTimeStepOnly :
    exec .gen { known 6 with timestamp := some 59 } = .next (gen Config.totpcore { known 6 with timestamp := some 59 }) ∧
    (30 : Word64).toNat / (known 6).timestep.toNat = (59 : Word64).toNat / (known 6).timestep.toNat ∧
    (59 : Word64).toNat / (known 6).timestep.toNat ≠ (60 : Word64).toNat / (known 6).timestep.toNat ∧
    (gen Config.totpcore { known 6 with timestamp := some 59 }).err = 0 ∧
    (gen Config.totpcore { known 6 with timestamp := some 60 }).err = 0 :=
  ⟨rfl, by decide, by decide, by decide +kernel, by decide +kernel⟩

theorem witness_CommandsTouchOnlyTheirColumns :
    agreeOn (reads .fmt) full { State.reset with trunc := some 7 } ∧ exec .fmt full = .next (fmt Config.totpcore full) := by
  refine ⟨?_, rfl⟩
  intro x hx
  simp only [reads, List.mem_cons, List.not_mem_nil, or_false] at hx
  rcases hx with rfl | rfl <;> rfl

theorem witness_TheBlockLeavesTheHostAlone :
    exec .clr full = .next full.cleared ∧ runWord 0x00000009 full = .next { full with err := 7 } ∧
    hostWrite full 0x005 8 = .next ({ full with digits := 8 }, .ok) := ⟨rfl, rfl, rfl⟩

theorem witness_ErrorCodesAndPriorities :
    (∀ i, decode 0x00000009 ≠ .ok i) ∧ 2 ^ 32 ≤ (0x100000000 : Word64).toNat :=
  ⟨fun _ h => (by cases h), by decide⟩

theorem witness_RegisterMapNumbersAreUnique :
    (Reg.data .secret 255).mapped = true ∧ (Reg.data .digest 19).mapped = true ∧ (Reg.data .code 9).mapped = true ∧
    (Reg.data .code 10).mapped = false := by decide

theorem witness_CommandErrorClearsDestinations :
    exec .fmt { full with digits := 0 } = .next (fmt Config.totpcore { full with digits := 0 }) ∧
    (fmt Config.totpcore { full with digits := 0 }).err ≠ 0 ∧ (∀ i, decode 0x00000107 ≠ .ok i) :=
  ⟨rfl, by decide, fun _ h => by cases h⟩

theorem witness_NoCodeAfterAnError :
    (exec .trunc State.reset = .next (trunc State.reset) ∧ (trunc State.reset).err ≠ 0) ∧
    (exec .fmt full = .next (fmt Config.totpcore full) ∧ (fmt Config.totpcore full).err = 0) :=
  ⟨⟨rfl, by decide⟩, ⟨rfl, by decide⟩⟩

theorem witness_OutOfRangeWriteFaults :
    2 ^ 32 ≤ (0x100000000 : Word64).toNat ∧ 2 ^ 16 ≤ (0x10000 : Word64).toNat ∧ 2 ^ 8 ≤ (0x100 : Word64).toNat ∧
    2 ^ 3 ≤ (8 : Word64).toNat ∧ ¬ 2 ^ 8 ≤ (0xFF : Word64).toNat ∧
    (0x100 ≤ (0x413 : RegNum).toNat ∧ ¬ unmappedNumber (0x413 : RegNum).toNat) := by
  simp [unmappedNumber]

/-- A cause of each kind at the ends of its range, and an access with no cause beside it. -/
theorem witness_AccessFaultCausesAreComplete :
    writeFaultCause Config.totpcore full 0x011 0 ∧ writeFaultCause Config.totpcore full 0xFFF 0 ∧
    writeFaultCause Config.totpcore full 0x100 0 ∧ writeFaultCause Config.totpcore full 0x00F 0xFF ∧
    writeFaultCause Config.totpcore full 0x005 0x100 ∧ ¬ writeFaultCause Config.totpcore full 0x005 0xFF ∧
    writeFaultCause Config.totpcore full 0x008 1 ∧ ¬ writeFaultCause Config.totpcore full 0x008 0 ∧
    readFaultCause full 0x414 ∧ readFaultCause full 0x000 ∧ readFaultCause State.reset 0x007 ∧
    readFaultCause full 0x303 ∧ ¬ readFaultCause full 0x302 ∧ ¬ readFaultCause full 0x413 := by
  simp [writeFaultCause, readFaultCause, unmappedNumber, full, Config.totpcore, State.reset]

theorem witness_ScalarRegisterAccess :
    State.reset.timestamp = none ∧ full.timestamp = some 59 ∧ State.reset.counter = none ∧ full.counter = some 1 ∧
    State.reset.trunc = none ∧ full.trunc = some 7 ∧ (0x007 : RegNum) ≠ 0x000 ∧
    writeIs (hostWrite full 0x007 8) .ok (fun t => t.trunc == some 8) = true := by decide

theorem witness_BufferLengthAndPushRegisters :
    (5 : Word64) ≠ 0 ∧ (full.buf .msg).length < Buf.msg.capacity Config.totpcore ∧
    (full.buf .digest).length = Buf.digest.capacity Config.totpcore ∧ 2 ^ 8 ≤ (0x100 : Word64).toNat ∧
    full.wf Config.totpcore = true := by decide +kernel

theorem witness_BufferDataRegisters :
    255 < Buf.secret.window ∧ 9 < Buf.code.window ∧ (full.buf .digest)[19]? = some 0xFF ∧
    (full.buf .msg).length ≤ 3 ∧ (full.buf .msg)[2]? = some 3 := by decide

theorem witness_CmdRegisterRunsTheCommand :
    decode 0x00000006 = .ok .fmt ∧ exec .fmt full = .next (fmt Config.totpcore full) ∧
    2 ^ 32 ≤ (0x100000000 : Word64).toNat := ⟨rfl, rfl, by decide⟩

theorem witness_EveryTransactionCompletes :
    ({ full with script := [.write 0x005 8, .reset] } : State).script = .write 0x005 8 :: [.reset] ∧
    (0x005 : RegNum) ≠ 0x000 ∧ full.script = .read 0x001 :: [] ∧
    ({ full with script := [.reset] } : State).script = .reset :: [] := by decide

theorem witness_OperandWritesInvalidateNothing :
    (hostWrite full 0x005 8 = .next ({ full with digits := 8 }, .ok) ∧ (0x005 : RegNum) ≠ 0x000) ∧
    (hostWrite full 0x00C 0 = .next ({ full with msg := [] }, .ok) ∧ (0x00C : RegNum) ≠ 0x000) :=
  ⟨⟨rfl, by decide⟩, ⟨rfl, by decide⟩⟩

theorem witness_AllButPushesAreIdempotent :
    (hostWrite full 0x005 8 = .next ({ full with digits := 8 }, .ok) ∧ (0x005 : RegNum).toNat ∉ [0x009, 0x00B, 0x00D, 0x00F]) ∧
    hostWrite full (Reg.push .msg).number 4 = .next ({ full with msg := [1, 2, 3, 4] }, .ok) := ⟨⟨rfl, by decide⟩, rfl⟩

theorem witness_EveryStepKeepsTheStateWellFormed :
    full.wf Config.totpcore = true ∧ step full = .next { full with script := [], responses := [.value 3, .ok] } :=
  ⟨by decide +kernel, rfl⟩

theorem witness_LegalParametersKeepTheStateWellFormed :
    let small : Config := ⟨1, 0, 8, 1, .trunc32⟩
    small.legal = true ∧ State.reset.wf small = true ∧
    acceptWrite small State.reset 0x009 0x41 = .ok (.stored { State.reset with secret := [0x41] }) :=
  ⟨by decide, by decide, rfl⟩

theorem witness_LoadingABufferReplacesIt :
    (List.replicate 20 (0xFF : Byte)).length ≤ LoadBuf.digest.buf.capacity Config.totpcore ∧
    ([] : List Byte).length ≤ LoadBuf.secret.buf.capacity Config.totpcore := by decide

theorem witness_ReadingABufferAnswersItsContent : full.wf Config.totpcore = true := by decide +kernel

theorem witness_TotpSequenceIsGenOnItsOperands : (List.replicate 256 (0x41 : Byte)).length ≤ 256 := by decide +kernel

end Sys2Proof.Tests
end

/-! PROOFS. Family 00_scope.md: byte lists and rotation as R5 writes them (O20), no code after an error (O39), and the
invariant under every legal parameter record (O52). -/

/-! ## Byte lists and rotation (00_scope.md R5) -/

namespace Sys2Proof.Machine

open Sys2Proof

/-- The bits `ROTL_n` shifts out at the top are the quotient by `2^(32-n)`; they come back below `2^n`, where the
shifted word is zero, so the disjunction is a sum. -/
theorem rotl_toNat (n : Nat) (v : Word32) (h : n ≤ 31) :
    (rotl n v).toNat = (v.toNat * 2 ^ n + v.toNat / 2 ^ (32 - n)) % 2 ^ 32 := by
  have hsplit : (2 : Nat) ^ 32 = 2 ^ (32 - n) * 2 ^ n := by rw [← Nat.pow_add]; congr 1; omega
  have hquot : v.toNat / 2 ^ (32 - n) < 2 ^ n := Nat.div_lt_of_lt_mul (hsplit ▸ v.isLt)
  have hrem : v.toNat % 2 ^ (32 - n) + 1 ≤ 2 ^ (32 - n) := Nat.mod_lt _ (Nat.two_pow_pos _)
  have hhigh : v.toNat * 2 ^ n % 2 ^ 32 = 2 ^ n * (v.toNat % 2 ^ (32 - n)) := by
    rw [hsplit, Nat.mul_mod_mul_right, Nat.mul_comm]
  have hfit : 2 ^ n * (v.toNat % 2 ^ (32 - n)) + v.toNat / 2 ^ (32 - n) < 2 ^ 32 := by
    have := Nat.mul_le_mul_left (2 ^ n) hrem
    rw [Nat.mul_add, Nat.mul_comm _ (2 ^ (32 - n)), ← hsplit] at this
    omega
  calc (rotl n v).toNat
      = v.toNat * 2 ^ n % 2 ^ 32 ||| v.toNat / 2 ^ (32 - n) := by
        simp only [rotl, BitVec.toNat_or, BitVec.toNat_shiftLeft, BitVec.toNat_ushiftRight, Nat.shiftLeft_eq,
          Nat.shiftRight_eq_div_pow]
    _ = 2 ^ n * (v.toNat % 2 ^ (32 - n)) + v.toNat / 2 ^ (32 - n) := by
        rw [hhigh, Nat.two_pow_add_eq_or_of_lt hquot]
    _ = (v.toNat * 2 ^ n + v.toNat / 2 ^ (32 - n)) % 2 ^ 32 := by
        rw [← Nat.mod_add_mod, hhigh, Nat.mod_eq_of_lt hfit]

/-- Settles O20, from the laws of `be` and `fromBE` and the value of `rotl`. -/
theorem bigEndianAndRotateNotation : Obligations.BigEndianAndRotateNotation :=
  ⟨be_length, be_getElem?, fromBE_be, be_fromBE, fun n v _ h => rotl_toNat n v h⟩

/-! ## What an error code is -/

theorem CmdError.code_ne_zero (e : CmdError) : e.code ≠ 0 := by cases e <;> decide

theorem CmdError.code_le_seven (e : CmdError) : e.code.toNat ≤ 7 := by cases e <;> decide

/-! ## CODE after a command -/

/-- CODE agrees with ERR: nothing in it after an error, and after success exactly DIGITS decimal characters, at least
one (10_state.md R21, 70_reset_and_hazards.md R164). -/
def CodeMatchesErr (t : State) : Prop :=
  (t.err ≠ 0 → t.code = []) ∧
  (t.err = 0 → t.code.length = t.digits.toNat ∧ t.code ≠ [] ∧ t.code.all isDigitChar = true)

theorem codeMatchesErr_of_error (e : Byte) {t : State} (he : e ≠ 0) (herr : t.err = e) (hcode : t.code = []) :
    CodeMatchesErr t :=
  ⟨fun _ => hcode, fun h => absurd (herr.symm.trans h) he⟩

theorem codeMatchesErr_of_decimal {t : State} (r : Nat) (herr : t.err = 0) (hdigits : 1 ≤ t.digits.toNat)
    (hcode : t.code = decimal r t.digits.toNat) : CodeMatchesErr t := by
  have hlen : t.code.length = t.digits.toNat := by rw [hcode, decimal_length]
  have hne : t.code ≠ [] := List.ne_nil_of_length_pos (by omega)
  exact ⟨fun h => absurd herr h, fun _ => ⟨hlen, hne, by rw [hcode, decimal_all_digits]⟩⟩

theorem fmt_codeMatchesErr (cfg : Config) (s : State) : CodeMatchesErr (fmt cfg s) := by
  obtain ⟨-, h⟩ | ⟨_, -, -, h⟩ | ⟨_, -, hn, -, h⟩ := fmt_cases cfg s <;> rw [h]
  · exact codeMatchesErr_of_error 6 (by decide) rfl rfl
  · exact codeMatchesErr_of_error 3 (by decide) rfl rfl
  · exact codeMatchesErr_of_decimal _ rfl hn rfl

theorem gen_codeMatchesErr (cfg : Config) (s : State) : CodeMatchesErr (gen cfg s) := by
  obtain ⟨-, h⟩ | ⟨_, e, -, -, h⟩ | ⟨_, g, -, hg, h⟩ := gen_cases cfg s <;> rw [h]
  · exact codeMatchesErr_of_error 6 (by decide) rfl rfl
  · exact codeMatchesErr_of_error e.code e.code_ne_zero rfl rfl
  · obtain ⟨-, -, -, -, -, -, hformat⟩ := generate_ok _ _ _ _ _ _ hg
    obtain ⟨hn, -, hcode⟩ := format_ok _ _ _ _ hformat
    exact codeMatchesErr_of_decimal _ rfl hn hcode

/-- The five unit commands before FMT do not write CODE (30_encoding.md R63); CLR does, and reports no error. -/
theorem exec_code_of_error (i : Instr) (s t : State) (h : exec i s = .next t) (herr : t.err ≠ 0)
    (hfmt : i ≠ .fmt) (hgen : i ≠ .gen) : t.code = s.code := by
  cases i with
  | b32dec =>
    cases h
    obtain ⟨_, -, h⟩ | ⟨-, h⟩ := b32dec_cases s <;> rw [h]
  | tcnt =>
    cases h
    obtain ⟨-, h⟩ | ⟨_, -, -, h⟩ | ⟨_, -, -, h⟩ := tcnt_cases s <;> rw [h]
  | ctrenc =>
    cases h
    obtain ⟨-, h⟩ | ⟨_, -, -, -, h⟩ | ⟨_, _, -, -, h⟩ := ctrenc_cases Config.totpcore s <;> rw [h]
  | hmac => cases h; rfl
  | trunc =>
    cases h
    obtain ⟨_, h⟩ | ⟨-, h⟩ := trunc_cases s <;> rw [h]
  | fmt => exact absurd rfl hfmt
  | gen => exact absurd rfl hgen
  | clr => cases h; exact absurd rfl herr

theorem exec_codeMatchesErr (i : Instr) (s t : State) (h : exec i s = .next t) (hi : i = .fmt ∨ i = .gen) :
    CodeMatchesErr t := by
  obtain rfl | rfl := hi <;> cases h
  · exact fmt_codeMatchesErr _ s
  · exact gen_codeMatchesErr _ s

/-- Settles O39: FMT and GEN leave a CODE that agrees with ERR, and no other command that fails writes CODE. -/
theorem noCodeAfterAnError : Obligations.NoCodeAfterAnError := by
  intro i s t h
  exact ⟨fun herr => ⟨fun hi => (exec_codeMatchesErr i s t h hi).1 herr, exec_code_of_error i s t h herr⟩,
    fun herr hi => (exec_codeMatchesErr i s t h hi).2 herr⟩

/-! ## The invariant under each update of the register file

`State.wf` reads the five buffers and ERR alone, so an update of an operand scalar is seen through by definition. -/

/-- ERR may take any code of 30_encoding.md R64. -/
theorem wf_withErr {cfg : Config} {s : State} {e : Byte} (h : s.wf cfg = true) (he : e.toNat ≤ 7) :
    State.wf cfg { s with err := e } = true := by
  rw [State.wf_iff] at h ⊢
  obtain ⟨hsecret, hkey, hmsg, hdigest, hcode, -, hchars⟩ := h
  exact ⟨hsecret, hkey, hmsg, hdigest, hcode, he, hchars⟩

/-- A buffer may take any list that fits; CODE, decimal characters only (10_state.md R21, R24). -/
theorem wf_setBuf {cfg : Config} {s : State} {b : Buf} {l : List Byte} (h : s.wf cfg = true)
    (hl : l.length ≤ b.capacity cfg) (hc : b = .code → l.all isDigitChar = true) :
    State.wf cfg (s.setBuf b l) = true := by
  rw [State.wf_iff] at h ⊢
  obtain ⟨hsecret, hkey, hmsg, hdigest, hcode, herr, hchars⟩ := h
  cases b with
  | secret => exact ⟨hl, hkey, hmsg, hdigest, hcode, herr, hchars⟩
  | key => exact ⟨hsecret, hl, hmsg, hdigest, hcode, herr, hchars⟩
  | msg => exact ⟨hsecret, hkey, hl, hdigest, hcode, herr, hchars⟩
  | digest => exact ⟨hsecret, hkey, hmsg, hl, hcode, herr, hchars⟩
  | code => exact ⟨hsecret, hkey, hmsg, hdigest, hl, herr, hc rfl⟩

theorem wf_setBuf_nil {cfg : Config} {s : State} (b : Buf) (h : s.wf cfg = true) :
    State.wf cfg (s.setBuf b []) = true :=
  wf_setBuf h (Nat.zero_le _) fun _ => rfl

/-- The reset values meet the invariant whatever the parameters are (10_state.md R30). -/
theorem cleared_wf (cfg : Config) (s : State) : s.cleared.wf cfg = true := by
  rw [State.wf_iff]; simp

/-! ## What the units produce fits -/

/-- The bounds of 00_scope.md R4 the units need: KEY holds a decoded secret and MSG a counter block. -/
theorem Config.legal_bounds {cfg : Config} (h : cfg.legal = true) :
    5 * cfg.secretMax / 8 ≤ cfg.keyMax ∧ 8 ≤ cfg.msgMax := by
  simp only [Config.legal, Bool.and_eq_true, decide_eq_true_eq] at h
  omega

theorem b32Decode_length_le (l out : List Byte) (h : b32Decode l = .ok out) : out.length ≤ 5 * l.length / 8 := by
  obtain ⟨-, rfl⟩ := b32Decode_ok l out h
  have := b32Values_length_le l
  rw [b32Closed_length]
  omega

/-- A secret within its capacity decodes to a key within its own (00_scope.md R4, P1 and P2). -/
theorem b32Decode_fits_key {cfg : Config} {s : State} {out : List Byte} (hcfg : cfg.legal = true)
    (hs : s.wf cfg = true) (h : b32Decode s.secret = .ok out) : out.length ≤ Buf.key.capacity cfg := by
  obtain ⟨hsecret, -⟩ := (State.wf_iff cfg s).mp hs
  obtain ⟨hkey, -⟩ := Config.legal_bounds hcfg
  have hout := b32Decode_length_le _ _ h
  simp only [Buf.capacity]
  omega

/-- A counter block has 8 bytes in every mode (41_counter_encoder.md R94). -/
theorem counterEncode_fits_msg {cfg : Config} {c : Word64} {block : List Byte} (hcfg : cfg.legal = true)
    (h : counterEncode cfg.ctrMode c = .ok block) : block.length ≤ Buf.msg.capacity cfg := by
  rw [counterEncode_length _ _ _ h]
  exact (Config.legal_bounds hcfg).2

theorem hmacSha1_fits_digest (cfg : Config) (key msg : List Byte) :
    (hmacSha1 key msg).length ≤ Buf.digest.capacity cfg :=
  (hmacSha1_length key msg).le

theorem decimal_fits_code {cfg : Config} (r : Nat) {n : Nat} (h : n ≤ cfg.digitsMax) :
    (decimal r n).length ≤ Buf.code.capacity cfg := by
  rwa [decimal_length]

/-! ## The invariant under each command and write -/

theorem b32dec_wf {cfg : Config} {s : State} (hcfg : cfg.legal = true) (hs : s.wf cfg = true) :
    (b32dec s).wf cfg = true := by
  obtain ⟨out, hout, h⟩ | ⟨-, h⟩ := b32dec_cases s <;> rw [h]
  · exact wf_withErr (wf_setBuf (b := .key) hs (b32Decode_fits_key hcfg hs hout) nofun) (by decide)
  · exact wf_withErr (wf_setBuf_nil .key hs) (by decide)

theorem tcnt_wf {cfg : Config} {s : State} (hs : s.wf cfg = true) : (tcnt s).wf cfg = true := by
  obtain ⟨-, h⟩ | ⟨_, -, -, h⟩ | ⟨_, -, -, h⟩ := tcnt_cases s <;> rw [h] <;> exact wf_withErr hs (by decide)

theorem ctrenc_wf {cfg : Config} {s : State} (hcfg : cfg.legal = true) (hs : s.wf cfg = true) :
    (ctrenc cfg s).wf cfg = true := by
  obtain ⟨-, h⟩ | ⟨_, -, -, -, h⟩ | ⟨_, _, -, hblock, h⟩ := ctrenc_cases cfg s <;> rw [h]
  · exact wf_withErr (wf_setBuf_nil .msg hs) (by decide)
  · exact wf_withErr (wf_setBuf_nil .msg hs) (by decide)
  · exact wf_withErr (wf_setBuf (b := .msg) hs (counterEncode_fits_msg hcfg hblock) nofun) (by decide)

theorem hmac_wf {cfg : Config} {s : State} (hs : s.wf cfg = true) : (hmac s).wf cfg = true :=
  wf_withErr (wf_setBuf (b := .digest) hs (hmacSha1_fits_digest cfg s.key s.msg) nofun) (by decide)

theorem trunc_wf {cfg : Config} {s : State} (hs : s.wf cfg = true) : (trunc s).wf cfg = true := by
  obtain ⟨_, h⟩ | ⟨-, h⟩ := trunc_cases s <;> rw [h] <;> exact wf_withErr hs (by decide)

theorem fmt_wf {cfg : Config} {s : State} (hs : s.wf cfg = true) : (fmt cfg s).wf cfg = true := by
  obtain ⟨-, h⟩ | ⟨_, -, -, h⟩ | ⟨_, -, -, hn, h⟩ := fmt_cases cfg s <;> rw [h]
  · exact wf_withErr (wf_setBuf_nil .code hs) (by decide)
  · exact wf_withErr (wf_setBuf_nil .code hs) (by decide)
  · exact wf_withErr (wf_setBuf (b := .code) hs (decimal_fits_code _ hn) fun _ => decimal_all_digits _ _) (by decide)

theorem genFailed_wf {cfg : Config} {s : State} {e : Byte} (hs : s.wf cfg = true) (he : e.toNat ≤ 7) :
    (genFailed s e).wf cfg = true :=
  wf_withErr (wf_setBuf_nil .code (wf_setBuf_nil .digest (wf_setBuf_nil .msg (wf_setBuf_nil .key hs)))) he

theorem genDone_wf {cfg : Config} {s : State} {t : Word64} {g : Generated} (hcfg : cfg.legal = true)
    (hs : s.wf cfg = true) (hg : generate cfg s.secret t s.timestep s.digits = .ok g) :
    (genDone s g).wf cfg = true := by
  obtain ⟨-, hdecode, -, hencode, hdigest, -, hformat⟩ := generate_ok _ _ _ _ _ _ hg
  obtain ⟨-, hn, hcode⟩ := format_ok _ _ _ _ hformat
  have hkey := wf_setBuf (b := .key) hs (b32Decode_fits_key hcfg hs hdecode) nofun
  have hmsg := wf_setBuf (b := .msg) hkey (counterEncode_fits_msg hcfg hencode) nofun
  have hdig := wf_setBuf (b := .digest) (l := g.digest) hmsg (hdigest ▸ hmacSha1_fits_digest cfg _ _) nofun
  have hall := wf_setBuf (b := .code) (l := g.code) hdig (hcode ▸ decimal_fits_code _ hn)
    fun _ => hcode ▸ decimal_all_digits _ _
  exact wf_withErr (e := 0) hall (by decide)

theorem gen_wf {cfg : Config} {s : State} (hcfg : cfg.legal = true) (hs : s.wf cfg = true) :
    (gen cfg s).wf cfg = true := by
  obtain ⟨-, h⟩ | ⟨_, e, -, -, h⟩ | ⟨_, _, -, hg, h⟩ := gen_cases cfg s <;> rw [h]
  · exact genFailed_wf hs (by decide)
  · exact genFailed_wf hs e.code_le_seven
  · exact genDone_wf hcfg hs hg

theorem illegalCommand_wf {cfg : Config} {s : State} (hs : s.wf cfg = true) : (illegalCommand s).wf cfg = true := by
  rw [illegalCommand_eq]
  exact wf_withErr hs (by decide)

/-- No host write reaches CODE (20_memory.md R46). -/
theorem LoadBuf.buf_ne_code (b : LoadBuf) : b.buf ≠ .code := by cases b <;> decide

/-- A host write cannot overflow a buffer: it empties one, or pushes to one that is not full (20_memory.md R45, R46). -/
theorem acceptWrite_wf {cfg : Config} {s t : State} {a : RegNum} {v : Word64} (hs : s.wf cfg = true)
    (h : acceptWrite cfg s a v = .ok (.stored t)) : t.wf cfg = true := by
  obtain ⟨-, rfl⟩ | ⟨-, -, rfl⟩ | ⟨-, -, rfl⟩ | ⟨-, rfl⟩ | ⟨-, -, rfl⟩ | ⟨b, -, -, rfl⟩ | ⟨b, -, -, hroom, rfl⟩ :=
    acceptWrite_stored cfg s t a v h
  case inr.inr.inr.inr.inr.inl => exact wf_setBuf_nil b.buf hs
  case inr.inr.inr.inr.inr.inr =>
    exact wf_setBuf hs (by rw [List.length_append]; exact hroom) fun hb => absurd hb b.buf_ne_code
  all_goals exact hs

/-- Settles O52, from the rule of each command and the rule of an accepted write. -/
theorem legalParametersKeepTheStateWellFormed : Obligations.LegalParametersKeepTheStateWellFormed := by
  intro cfg s hcfg hs
  exact ⟨b32dec_wf hcfg hs, tcnt_wf hs, ctrenc_wf hcfg hs, hmac_wf hs, trunc_wf hs, fmt_wf hs, gen_wf hcfg hs,
    cleared_wf cfg s, illegalCommand_wf hs, fun _ _ _ => acceptWrite_wf hs⟩

end Sys2Proof.Machine

/-! PROOFS. Family 10_state.md: the reset values (O6), the reset state and every step within the invariant of the register
file (O8, O51), and the host left alone (O36). -/

namespace Sys2Proof.Machine

open Sys2Proof

/-! ## What a word and a transaction can do -/

/-- Everything a word written to CMD can do (20_memory.md R48, 30_encoding.md R62): run the command it encodes, or end as
an illegal word. -/
theorem runWord_cases {w : Word32} {s t : State} (h : runWord w s = .next t) :
    (∃ i, decode w = .ok i ∧ exec i s = .next t) ∨ ((∀ i, decode w ≠ .ok i) ∧ t = illegalCommand s) := by
  by_cases hlegal : ∃ i, decode w = .ok i
  · obtain ⟨i, hi⟩ := hlegal
    exact .inl ⟨i, hi, runWord_ok w i s hi ▸ h⟩
  · have hillegal := not_exists.mp hlegal
    rw [runWord_illegal w s hillegal] at h
    exact .inr ⟨hillegal, (Host.Outcome.next.inj h).symm⟩

/-- Everything a transaction can do (20_memory.md R41, 70_reset_and_hazards.md R161): a write leaves what the host write
leaves and records its response, a read records its response alone, and `Reset` records none. -/
theorem transact_cases {x : Txn} {s t : State} (h : transact x s = .next t) :
    (∃ a v u r, x = .write a v ∧ hostWrite s a v = .next (u, r) ∧ t = u.respond r) ∨
    (∃ a, x = .read a ∧ t = s.respond (hostRead s a)) ∨
    (x = .reset ∧ t = s.cleared) := by
  cases x with
  | write a v =>
    simp only [transact] at h
    split at h
    case h_1 u r hw => exact .inl ⟨a, v, u, r, rfl, hw, (Host.Outcome.next.inj h).symm⟩
    all_goals cases h
  | read a => exact .inr (.inl ⟨a, rfl, (Host.Outcome.next.inj h).symm⟩)
  | reset => exact .inr (.inr ⟨rfl, (Host.Outcome.next.inj h).symm⟩)

/-! ## The invariant along a step -/

/-- The parameters of this hardware are within the ranges of 00_scope.md R4, so the invariant's rules apply to it. -/
theorem Config.totpcore_legal : Config.totpcore.legal = true := by decide

theorem exec_wf {i : Instr} {s t : State} (hs : s.wf Config.totpcore = true) (h : exec i s = .next t) :
    t.wf Config.totpcore = true := by
  cases i with
  | b32dec => cases h; exact b32dec_wf Config.totpcore_legal hs
  | tcnt => cases h; exact tcnt_wf hs
  | ctrenc => cases h; exact ctrenc_wf Config.totpcore_legal hs
  | hmac => cases h; exact hmac_wf hs
  | trunc => cases h; exact trunc_wf hs
  | fmt => cases h; exact fmt_wf hs
  | gen => cases h; exact gen_wf Config.totpcore_legal hs
  | clr => cases h; exact cleared_wf Config.totpcore s

theorem runWord_wf {w : Word32} {s t : State} (hs : s.wf Config.totpcore = true) (h : runWord w s = .next t) :
    t.wf Config.totpcore = true := by
  obtain ⟨i, -, hi⟩ | ⟨-, rfl⟩ := runWord_cases h
  · exact exec_wf hs hi
  · exact illegalCommand_wf hs

theorem hostWrite_wf {s t : State} {a : RegNum} {v : Word64} {r : Resp} (hs : s.wf Config.totpcore = true)
    (h : hostWrite s a v = .next (t, r)) : t.wf Config.totpcore = true := by
  obtain ⟨_, -, hw⟩ | ⟨_, hstored, hw⟩ | ⟨_, _, -, -, -, hrun, hw⟩ := hostWrite_cases s a v <;> cases hw.symm.trans h
  · exact hs
  · exact acceptWrite_wf hs hstored
  · exact runWord_wf hs hrun

/-- The invariant does not read what the host was answered. -/
@[simp] theorem respond_wf (cfg : Config) (s : State) (r : Resp) : (s.respond r).wf cfg = s.wf cfg := rfl

/-- The invariant does not read the host's script. -/
@[simp] theorem withScript_wf (cfg : Config) (s : State) (xs : List Txn) :
    State.wf cfg { s with script := xs } = s.wf cfg := rfl

theorem transact_wf {x : Txn} {s t : State} (hs : s.wf Config.totpcore = true) (h : transact x s = .next t) :
    t.wf Config.totpcore = true := by
  obtain ⟨_, _, _, _, -, hw, rfl⟩ | ⟨_, -, rfl⟩ | ⟨-, rfl⟩ := transact_cases h
  · rw [respond_wf]; exact hostWrite_wf hs hw
  · rwa [respond_wf]
  · exact cleared_wf Config.totpcore s

/-- Settles O51: the invariant reads no script, so a step keeps it as the transaction it issues does. -/
theorem everyStepKeepsTheStateWellFormed : Obligations.EveryStepKeepsTheStateWellFormed := by
  intro s t hs h
  cases hscript : s.script with
  | nil =>
    rw [step_nil s hscript] at h
    cases h
    exact hs
  | cons x xs =>
    rw [step_cons s x xs hscript] at h
    exact transact_wf (by rwa [withScript_wf]) h

/-- Settles O8: the reset state is its own reset. -/
theorem resetStateIsWellFormed : Obligations.ResetStateIsWellFormed :=
  cleared_wf Config.totpcore State.reset

/-! ## The host's script and responses -/

theorem runWord_hostUnchanged {w : Word32} {s t : State} (h : runWord w s = .next t) : hostUnchanged s t := by
  obtain ⟨i, -, hi⟩ | ⟨-, rfl⟩ := runWord_cases h
  · exact exec_script i s t hi
  · exact ⟨rfl, rfl⟩

/-- Settles O36, from the frame of the commands, of the words and of the host writes. -/
theorem theBlockLeavesTheHostAlone : Obligations.TheBlockLeavesTheHostAlone :=
  ⟨exec_script, fun _ _ _ => runWord_hostUnchanged, hostWrite_script,
    fun s => ⟨cleared_script s, cleared_responses s⟩⟩

/-! ## The reset values as the host reads them -/

/-- A length register reads as the number of elements (20_memory.md R45). -/
theorem hostRead_len (s : State) (b : Buf) :
    hostRead s (Reg.len b).number = .value (BitVec.ofNat 64 (s.buf b).length) := by
  simp only [hostRead, acceptRead, regOf_number (.len b) rfl, readReg]

/-- VALID reads as the view of the three valid flags (10_state.md R23). -/
theorem hostRead_valid (s : State) : hostRead s Reg.valid.number = .value (s.valid.setWidth 64) := by
  simp only [hostRead, acceptRead, regOf_number .valid rfl, readReg]

@[simp] theorem cleared_buf (s : State) (b : Buf) : s.cleared.buf b = [] := by cases b <;> rfl

@[simp] theorem cleared_valid (s : State) : s.cleared.valid = 0 := rfl

theorem hostRead_len_cleared (s : State) (b : Buf) : hostRead s.cleared (Reg.len b).number = .value 0 := by
  rw [hostRead_len, cleared_buf]; rfl

theorem hostRead_valid_cleared (s : State) : hostRead s.cleared Reg.valid.number = .value 0 := by
  rw [hostRead_valid, cleared_valid]; rfl

/-- The `Reset` transaction and CLR leave one and the same state (92_eei_decisions.md D22). -/
theorem eq_cleared_of_reset_or_clr {s t : State}
    (h : t = hostReset s ∨ transact .reset s = .next t ∨ exec .clr s = .next t) : t = s.cleared := by
  obtain h | h | h := h
  · exact h
  · exact (Host.Outcome.next.inj h).symm
  · exact (Host.Outcome.next.inj h).symm

/-- Settles O6: whichever way the block was reset, its state is `s.cleared`, whose fields are read off. -/
theorem resetAndClearLeaveTheResetState : Obligations.ResetAndClearLeaveTheResetState := by
  intro s t h
  obtain rfl := eq_cleared_of_reset_or_clr h
  exact ⟨cleared_timestamp s, cleared_timestep s, cleared_digits s, cleared_counter s, cleared_trunc s, cleared_err s,
    cleared_secret s, cleared_key s, cleared_msg s, cleared_digest s, cleared_code s, hostRead_valid_cleared s,
    hostRead_len_cleared s .secret, hostRead_len_cleared s .key, hostRead_len_cleared s .msg,
    hostRead_len_cleared s .digest, hostRead_len_cleared s .code⟩

end Sys2Proof.Machine

/-! PROOFS. Family 20_memory.md: a step as the transaction it issues (O5, O53), the register map (O40), the causes of an
access fault (O42, O41), the registers of each kind (O43, O45, O46, O47), the steps of each kind (O48) and the repetition
of accesses (O50). -/

namespace Sys2Proof.Machine

open Sys2Proof

/-! ## A step issues the next transaction of the script (20_memory.md R52) -/

theorem transact_write {s t : State} {a : RegNum} {v : Word64} {r : Resp} (h : hostWrite s a v = .next (t, r)) :
    transact (.write a v) s = .next (t.respond r) := by
  simp only [transact, h]

/-- Settles O5: the CMD write is accepted and runs `exec` of its word's command. -/
theorem stepRunsTheDecodedCommand : Obligations.StepRunsTheDecodedCommand := by
  intro s t w rest i hscript hdecode hexec
  have hrun : runWord w { s with script := rest } = .next t := by rw [runWord_ok w i _ hdecode, hexec]
  rw [step_cons s _ _ hscript]
  exact transact_write (hostWrite_cmd _ _ _ hrun)

/-- Settles O53, by induction on the script: no transaction reads or changes the transactions still to come, so each
leaves the same whether or not the later ones stand behind it. -/
theorem runningAScriptIsTheFold : Obligations.RunningAScriptIsTheFold := by
  intro xs rest s
  induction xs generalizing s with
  | nil => rfl
  | cons x xs ih =>
    obtain ⟨t, ht⟩ := transact_total x { s with script := xs ++ rest }
    have hstep : step { s with script := x :: xs ++ rest } = .next t :=
      (step_cons _ x (xs ++ rest) rfl).trans ht
    have hfold : transact x { s with script := rest } = .next { t with script := rest } :=
      transact_withScript x { s with script := xs ++ rest } t rest ht
    have hscript : t.script = xs ++ rest := transact_script x _ t ht
    have hrun : core.run xs.length t = runScript xs { t with script := rest } := by rw [← ih t, ← hscript]
    rw [List.length_cons, run_succ _ _ t hstep, hrun, runScript, hfold]

/-! ## The register map (20_memory.md R57) -/

theorem dataReg_eq_none (b : Buf) (i : Nat) : dataReg b i = none ↔ b.window ≤ i := by
  unfold dataReg
  split <;> simp_all

/-- The numbers the map leaves out (20_memory.md R57, "Unmapped"). -/
theorem regOf_eq_none (a : RegNum) : regOf a = none ↔ unmappedNumber a.toNat := by
  have ha := a.isLt
  unfold regOf
  split
  case h_1 =>
    split
    case h_18 => simp only [imp_false] at *; simp only [unmappedNumber, true_iff]; omega
    all_goals simp only [unmappedNumber, reduceCtorEq, false_iff]; omega
  case h_7 => simp only [imp_false] at *; simp only [unmappedNumber, true_iff]; omega
  all_goals simp only [dataReg_eq_none, Buf.window, unmappedNumber]; omega

/-- The registers of 20_memory.md R57 other than the data windows, in the order of its table. -/
def singleRegs : List Reg :=
  [.cmd, .err, .valid, .timestamp, .timestep, .digits, .counter, .trunc, .len .secret, .push .secret, .len .key,
    .push .key, .len .msg, .push .msg, .len .digest, .push .digest, .len .code]

theorem singleRegs_map : singleRegs.map (fun r => (r.number.toNat, r.width)) =
    [(0x000, 32), (0x001, 8), (0x002, 3), (0x003, 64), (0x004, 32), (0x005, 8), (0x006, 64), (0x007, 32), (0x008, 16),
      (0x009, 8), (0x00A, 16), (0x00B, 8), (0x00C, 16), (0x00D, 8), (0x00E, 16), (0x00F, 8), (0x010, 16)] := by decide

theorem singleRegs_mapped : ∀ r ∈ singleRegs, r.mapped = true := by decide

/-- Settles O40: on the mapped registers, `regOf` and `Reg.number` are inverse to each other. -/
theorem registerMapNumbersAreUnique : Obligations.RegisterMapNumbersAreUnique := by
  refine ⟨fun a r => ⟨number_of_regOf a r, fun ⟨hr, ha⟩ => ha ▸ regOf_number r hr⟩, regOf_eq_none, singleRegs_map, ?_⟩
  intro b i hi
  refine ⟨rfl, ?_⟩
  rw [number_data_toNat b i (of_decide_eq_true hi)]
  cases b <;> rfl

/-- The data windows lie above every other register (20_memory.md R57). -/
theorem number_data_ge (b : Buf) (i : Nat) (h : i < b.window) : 0x100 ≤ (Reg.data b i).number.toNat := by
  rw [number_data_toNat b i h]
  cases b <;> simp only [Buf.base] <;> omega

/-! ## The causes of a write's access fault (20_memory.md R55) -/

theorem acceptWrite_number_error (cfg : Config) (s : State) (r : Reg) (v : Word64) (h : r.mapped = true) :
    (∃ f, acceptWrite cfg s r.number v = .error f) ↔
      r.writable = false ∨ 2 ^ r.width ≤ v.toNat ∨ ∃ f, writeInRange cfg s r v = .error f := by
  rw [acceptWrite_number cfg s r v h]
  split
  · simp [*]
  · split <;> simp [*]

/-- A length register takes 0 alone (20_memory.md R45). -/
theorem writeInRange_len_error (cfg : Config) (s : State) (b : LoadBuf) (v : Word64) :
    (∃ f, writeInRange cfg s (.len b.buf) v = .error f) ↔ v.toNat ≠ 0 := by
  have hzero : v.toNat = 0 ↔ v = 0 := BitVec.toNat_inj (y := 0)
  rw [ne_eq, hzero]
  cases b <;> simp only [LoadBuf.buf, writeInRange] <;> split <;> simp_all

/-- A push register takes a byte until its buffer is full (20_memory.md R46). -/
theorem writeInRange_push_error (cfg : Config) (s : State) (b : LoadBuf) (v : Word64) :
    (∃ f, writeInRange cfg s (.push b) v = .error f) ↔ b.buf.capacity cfg ≤ (s.buf b.buf).length := by
  rw [writeInRange, pushByte]
  split <;> simp <;> omega

theorem Buf.eq_code_or_load (b : Buf) : b = .code ∨ ∃ l : LoadBuf, b = l.buf := by
  cases b with
  | secret => exact .inr ⟨.secret, rfl⟩
  | key => exact .inr ⟨.key, rfl⟩
  | msg => exact .inr ⟨.msg, rfl⟩
  | digest => exact .inr ⟨.digest, rfl⟩
  | code => exact .inl rfl

/-- A register of the map refuses a write for the causes R55 lists under its number and for nothing else. -/
theorem acceptWrite_number_error_iff_cause (cfg : Config) (s : State) (r : Reg) (v : Word64) (h : r.mapped = true) :
    (∃ f, acceptWrite cfg s r.number v = .error f) ↔ writeFaultCause cfg s r.number.toNat v.toNat := by
  have hv := v.isLt
  rw [acceptWrite_number_error cfg s r v h]
  cases r with
  | data b i =>
    have hn := number_data_ge b i (of_decide_eq_true h)
    simp [writeFaultCause, Reg.writable, hn]
  | len b =>
    obtain rfl | ⟨l, rfl⟩ := b.eq_code_or_load
    · simp [writeFaultCause, Reg.number, Reg.writable]
    · rw [writeInRange_len_error]
      cases l <;> simp [writeFaultCause, unmappedNumber, Reg.number, Reg.writable, LoadBuf.buf, Reg.width] <;> omega
  | push b =>
    rw [writeInRange_push_error]
    cases b <;> simp [writeFaultCause, unmappedNumber, Reg.number, Reg.writable, Reg.width, LoadBuf.buf, State.buf,
      Buf.capacity]
  | timestamp | counter =>
    simp [writeFaultCause, unmappedNumber, Reg.number, Reg.writable, Reg.width, writeInRange]; omega
  | _ => simp [writeFaultCause, unmappedNumber, Reg.number, Reg.writable, Reg.width, writeInRange]

theorem acceptWrite_error_iff_cause (cfg : Config) (s : State) (a : RegNum) (v : Word64) :
    (∃ f, acceptWrite cfg s a v = .error f) ↔ writeFaultCause cfg s a.toNat v.toNat := by
  cases hr : regOf a with
  | none =>
    have hcause : writeFaultCause cfg s a.toNat v.toNat := .inl ((regOf_eq_none a).mp hr)
    simp [acceptWrite, hr, hcause]
  | some r =>
    obtain ⟨hmapped, rfl⟩ := number_of_regOf a r hr
    exact acceptWrite_number_error_iff_cause cfg s r v hmapped

theorem hostWrite_of_cause {s : State} {a : RegNum} {v : Word64}
    (h : writeFaultCause Config.totpcore s a.toNat v.toNat) : hostWrite s a v = .next (s, .fault) := by
  obtain ⟨f, hf⟩ := (acceptWrite_error_iff_cause _ s a v).mpr h
  exact hostWrite_of_error s a v f hf

theorem hostWrite_of_no_cause {s : State} {a : RegNum} {v : Word64}
    (h : ¬ writeFaultCause Config.totpcore s a.toNat v.toNat) : ∃ t, hostWrite s a v = .next (t, .ok) := by
  obtain ⟨f, hf, -⟩ | ⟨t, -, hw⟩ | ⟨_, t, -, -, -, -, hw⟩ := hostWrite_cases s a v
  · exact absurd ((acceptWrite_error_iff_cause _ s a v).mp ⟨f, hf⟩) h
  · exact ⟨t, hw⟩
  · exact ⟨t, hw⟩

/-! ## The causes of a read's access fault (20_memory.md R55) -/

theorem readScalar_error {n : Nat} (o : Option (BitVec n)) : (∃ f, readScalar o = .error f) ↔ o = none := by
  cases o <;> simp [readScalar]

/-- A data register reads below the length of its buffer (20_memory.md R47). -/
theorem readReg_data_error (s : State) (b : Buf) (i : Nat) :
    (∃ f, readReg s (.data b i) = .error f) ↔ (s.buf b).length ≤ i := by
  rw [readReg, ← List.getElem?_eq_none_iff]
  cases (s.buf b)[i]? <;> simp

/-- A register of the map refuses a read for the causes R55 lists under its number and for nothing else. -/
theorem readReg_error_iff_cause (s : State) (r : Reg) (h : r.mapped = true) :
    (∃ f, readReg s r = .error f) ↔ readFaultCause s r.number.toNat := by
  cases r with
  | data b i =>
    have hi : i < b.window := of_decide_eq_true h
    rw [readReg_data_error, number_data_toNat b i hi]
    cases b <;> simp [Buf.base, Buf.window, readFaultCause, unmappedNumber, State.buf] at * <;> omega
  | len b => cases b <;> simp [readFaultCause, unmappedNumber, Reg.number, readReg]
  | push b => cases b <;> simp [readFaultCause, unmappedNumber, Reg.number, readReg]
  | timestamp | counter | trunc =>
    rw [readReg, readScalar_error]
    simp [readFaultCause, unmappedNumber, Reg.number]
  | _ => simp [readFaultCause, unmappedNumber, Reg.number, readReg]

theorem acceptRead_error_iff_cause (s : State) (a : RegNum) :
    (∃ f, acceptRead s a = .error f) ↔ readFaultCause s a.toNat := by
  cases hr : regOf a with
  | none =>
    have hcause : readFaultCause s a.toNat := .inl ((regOf_eq_none a).mp hr)
    simp [acceptRead, hr, hcause]
  | some r =>
    obtain ⟨hmapped, rfl⟩ := number_of_regOf a r hr
    rw [acceptRead, hr]
    exact readReg_error_iff_cause s r hmapped

/-- Everything a host read can do (20_memory.md R41): `FAULT` for a cause of R55, else `OK` and a value. -/
theorem hostRead_cases (s : State) (a : RegNum) :
    (readFaultCause s a.toNat ∧ hostRead s a = .fault) ∨
    (¬ readFaultCause s a.toNat ∧ ∃ v, acceptRead s a = .ok v ∧ hostRead s a = .value v) := by
  rw [← acceptRead_error_iff_cause, hostRead]
  cases acceptRead s a with
  | ok v => exact .inr ⟨nofun, v, rfl, rfl⟩
  | error f => exact .inl ⟨⟨f, rfl⟩, rfl⟩

theorem hostRead_of_cause {s : State} {a : RegNum} (h : readFaultCause s a.toNat) : hostRead s a = .fault := by
  obtain ⟨-, hr⟩ | ⟨hno, -⟩ := hostRead_cases s a
  · exact hr
  · exact absurd h hno

theorem hostRead_number {s : State} {r : Reg} {v : Word64} (h : r.mapped = true) (hr : readReg s r = .ok v) :
    hostRead s r.number = .value v := by
  simp only [hostRead, acceptRead, regOf_number r h, hr]

/-- Settles O42: the port accepts an access exactly when no cause of R55 holds. -/
theorem accessFaultCausesAreComplete : Obligations.AccessFaultCausesAreComplete := by
  refine ⟨fun s a v => ⟨hostWrite_of_cause, hostWrite_of_no_cause⟩, fun s a => ⟨hostRead_of_cause, fun hno => ?_⟩⟩
  obtain ⟨hcause, -⟩ | ⟨-, v, -, hr⟩ := hostRead_cases s a
  · exact absurd hcause hno
  · exact ⟨v, hr⟩

theorem hostWrite_outOfRange {s : State} {r : Reg} {v : Word64} (h : r.mapped = true) (hv : 2 ^ r.width ≤ v.toNat) :
    hostWrite s r.number v = .next (s, .fault) := by
  obtain ⟨f, hf⟩ := (acceptWrite_number_error Config.totpcore s r v h).mpr (.inr (.inl hv))
  exact hostWrite_of_error s _ v f hf

/-- Settles O41: a row of the table is one of the single registers, whose width bounds its data; a data register takes no
data at all. -/
theorem outOfRangeWriteFaults : Obligations.OutOfRangeWriteFaults := by
  intro s a v w ha hv
  obtain hrow | ⟨-, hdata, -⟩ := ha
  · have htable : (a.toNat, w) ∈ singleRegs.map fun r => (r.number.toNat, r.width) := by
      rw [singleRegs_map]
      exact List.Sublist.mem hrow (by decide)
    obtain ⟨r, hr, heq⟩ := List.mem_map.mp htable
    obtain ⟨hn, rfl⟩ := Prod.mk.inj heq
    obtain rfl := BitVec.eq_of_toNat_eq hn
    exact hostWrite_outOfRange (singleRegs_mapped r hr) hv
  · exact hostWrite_of_cause (.inr (.inr (.inr (.inr (.inl hdata)))))

/-! ## The registers of each kind (20_memory.md R44 to R48) -/

/-- A host write other than CMD runs no command: it faults and changes nothing, or it stores (20_memory.md R48). -/
theorem hostWrite_not_cmd {s t : State} {a : RegNum} {v : Word64} {r : Resp} (ha : a ≠ 0x000)
    (h : hostWrite s a v = .next (t, r)) : t = s ∨ acceptWrite Config.totpcore s a v = .ok (.stored t) := by
  obtain ⟨_, -, hw⟩ | ⟨u, hu, hw⟩ | ⟨_, _, hcmd, -⟩ := hostWrite_cases s a v
  · cases hw.symm.trans h
    exact .inl rfl
  · cases hw.symm.trans h
    exact .inr hu
  · exact absurd hcmd ha

/-- A host write other than CMD leaves every optional scalar that holds a value with one (20_memory.md R44). -/
theorem hostWrite_keeps_some {s t : State} {a : RegNum} {v : Word64} {r : Resp} (ha : a ≠ 0x000)
    (h : hostWrite s a v = .next (t, r)) :
    (s.timestamp ≠ none → t.timestamp ≠ none) ∧ (s.counter ≠ none → t.counter ≠ none) ∧
      (s.trunc ≠ none → t.trunc ≠ none) := by
  obtain rfl | hstored := hostWrite_not_cmd ha h
  · exact ⟨id, id, id⟩
  · obtain ⟨-, rfl⟩ | ⟨-, -, rfl⟩ | ⟨-, -, rfl⟩ | ⟨-, rfl⟩ | ⟨-, -, rfl⟩ | ⟨b, -, -, rfl⟩ | ⟨b, -, -, -, rfl⟩ :=
      acceptWrite_stored _ s t a v hstored <;> simp

/-- Settles O43: each scalar by the rule of its register. -/
theorem scalarRegisterAccess : Obligations.ScalarRegisterAccess := by
  refine ⟨fun s v => ⟨hostWrite_number _ _ .timestamp v rfl rfl v.isLt rfl,
      hostWrite_number _ _ .counter v rfl rfl v.isLt rfl⟩, fun s v => ?_, fun s v => ?_, fun s => ?_,
    fun s t a v r => hostWrite_keeps_some⟩
  · obtain ⟨hn, hw⟩ := setWidth_roundtrip 32 v (by omega)
    exact ⟨hostWrite_number _ _ .timestep _ rfl rfl (hn ▸ v.isLt) (by rw [writeInRange, hw]),
      hostWrite_number _ _ .trunc _ rfl rfl (hn ▸ v.isLt) (by rw [writeInRange, hw])⟩
  · obtain ⟨hn, hw⟩ := setWidth_roundtrip 8 v (by omega)
    exact hostWrite_number _ _ .digits _ rfl rfl (hn ▸ v.isLt) (by rw [writeInRange, hw])
  · refine ⟨hostRead_number (r := .err) rfl rfl, hostRead_valid s, hostRead_number (r := .timestep) rfl rfl,
      hostRead_number (r := .digits) rfl rfl, ?_, ?_, ?_, ?_, ?_, ?_⟩
    · exact fun h => hostRead_of_cause (by simp [readFaultCause, h])
    · exact fun v h => hostRead_number (r := .timestamp) rfl (by simp [readReg, readScalar, h])
    · exact fun h => hostRead_of_cause (by simp [readFaultCause, h])
    · exact fun v h => hostRead_number (r := .counter) rfl (by simp [readReg, readScalar, h])
    · exact fun h => hostRead_of_cause (by simp [readFaultCause, h])
    · exact fun v h => hostRead_number (r := .trunc) rfl (by simp [readReg, readScalar, h])

theorem hostWrite_len_zero (s : State) (b : LoadBuf) :
    hostWrite s (Reg.len b.buf).number 0 = .next (s.setBuf b.buf [], .ok) := by
  apply hostWrite_number _ _ _ _ rfl
  · cases b <;> rfl
  · exact Nat.two_pow_pos _
  · cases b <;> rfl

theorem hostWrite_len_nonzero {s : State} {b : LoadBuf} {v : Word64} (h : v ≠ 0) :
    hostWrite s (Reg.len b.buf).number v = .next (s, .fault) := by
  have hv : v.toNat ≠ 0 := fun h0 => h (BitVec.eq_of_toNat_eq h0)
  apply hostWrite_of_cause
  cases b <;> simp [writeFaultCause, LoadBuf.buf, Reg.number, hv]

theorem hostWrite_push_full {s : State} {b : LoadBuf} {v : Word64}
    (h : b.buf.capacity Config.totpcore ≤ (s.buf b.buf).length) :
    hostWrite s (Reg.push b).number v = .next (s, .fault) := by
  apply hostWrite_of_cause
  cases b <;> simp only [LoadBuf.buf, Buf.capacity, State.buf] at h <;> simp [writeFaultCause, Reg.number, h]

theorem hostRead_push (s : State) (b : LoadBuf) : hostRead s (Reg.push b).number = .fault := by
  apply hostRead_of_cause
  cases b <;> simp [readFaultCause, Reg.number]

/-- The capacities of this hardware fit the 16 bits of a length register, and so do the lengths of a well-formed state
(10_state.md R24). -/
theorem wf_buf_fits {s : State} (h : s.wf Config.totpcore = true) (b : Buf) :
    (s.buf b).length ≤ b.capacity Config.totpcore ∧ b.capacity Config.totpcore < 2 ^ 16 := by
  obtain ⟨hsecret, hkey, hmsg, hdigest, hcode, -, -⟩ := (State.wf_iff _ s).mp h
  cases b with
  | secret => exact ⟨hsecret, by decide⟩
  | key => exact ⟨hkey, by decide⟩
  | msg => exact ⟨hmsg, by decide⟩
  | digest => exact ⟨hdigest, by decide⟩
  | code => exact ⟨hcode, by decide⟩

/-- Settles O45, from the rules of the length and push registers. -/
theorem bufferLengthAndPushRegisters : Obligations.BufferLengthAndPushRegisters := by
  refine ⟨fun s b v => ⟨hostWrite_len_zero s b, hostWrite_len_nonzero, ?_⟩, fun s b x v =>
    ⟨hostWrite_push s b x, fun hfull => hostWrite_push_full hfull.ge, hostWrite_outOfRange (r := .push b) rfl, hostRead_push s b⟩,
    fun s b hs => ⟨_, hostRead_len s b, ?_⟩⟩
  · exact hostWrite_of_cause (by simp [writeFaultCause, Reg.number])
  · obtain ⟨hlen, hcap⟩ := wf_buf_fits hs b
    rw [BitVec.toNat_ofNat, Nat.mod_eq_of_lt (by omega)]
    exact ⟨rfl, hlen⟩

/-- Settles O46: a data register has no host write, and reads as the element of its buffer. -/
theorem bufferDataRegisters : Obligations.BufferDataRegisters := by
  intro s b i v hi
  have hmapped : (Reg.data b i).mapped = true := decide_eq_true hi
  refine ⟨hostWrite_of_cause ?_, fun x hx => hostRead_number hmapped (by simp only [readReg, hx]), fun hlen => ?_⟩
  · exact .inr (.inr (.inr (.inr (.inl (number_data_ge b i hi)))))
  · exact hostRead_of_cause ((readReg_error_iff_cause s _ hmapped).mp ((readReg_data_error s b i).mpr hlen))

/-- Settles O47: every word runs to completion, and the CMD write answers `OK` in the state it leaves. -/
theorem cmdRegisterRunsTheCommand : Obligations.CmdRegisterRunsTheCommand := by
  refine ⟨fun s w => ?_, fun s t w i hdecode hexec => (runWord_ok w i s hdecode).trans hexec,
    fun s v => hostWrite_outOfRange (r := .cmd) rfl, fun s => hostRead_of_cause (.inr (.inl rfl))⟩
  obtain ⟨t, ht⟩ := runWord_total w s
  exact ⟨t, ht, hostWrite_cmd s t w ht⟩

/-! ## The steps of each kind (20_memory.md R41) -/

/-- A command and nothing else writes ERR (10_state.md R22). -/
theorem hostWrite_err {s t : State} {a : RegNum} {v : Word64} {r : Resp} (ha : a ≠ 0x000)
    (h : hostWrite s a v = .next (t, r)) : t.err = s.err := by
  obtain rfl | hstored := hostWrite_not_cmd ha h
  · rfl
  · obtain ⟨-, rfl⟩ | ⟨-, -, rfl⟩ | ⟨-, -, rfl⟩ | ⟨-, rfl⟩ | ⟨-, -, rfl⟩ | ⟨b, -, -, rfl⟩ | ⟨b, -, -, -, rfl⟩ :=
      acceptWrite_stored _ s t a v hstored <;> simp

/-- Every host write is answered: `OK`, or `FAULT` in an unchanged state (20_memory.md R41, R42). -/
theorem hostWrite_answers (s : State) (a : RegNum) (v : Word64) :
    ∃ t r, hostWrite s a v = .next (t, r) ∧ (r = .ok ∨ r = .fault ∧ t = s) := by
  obtain ⟨_, -, hw⟩ | ⟨t, -, hw⟩ | ⟨_, t, -, -, -, -, hw⟩ := hostWrite_cases s a v
  · exact ⟨s, .fault, hw, .inr ⟨rfl, rfl⟩⟩
  · exact ⟨t, .ok, hw, .inl rfl⟩
  · exact ⟨t, .ok, hw, .inl rfl⟩

theorem step_total (s : State) : ∃ t, step s = .next t := by
  cases hscript : s.script with
  | nil => exact ⟨s, step_nil s hscript⟩
  | cons x rest =>
    rw [step_cons s x rest hscript]
    exact transact_total x _

/-- Settles O48: a step is the transaction at the head of the script, on the state with that transaction taken off. -/
theorem everyTransactionCompletes : Obligations.EveryTransactionCompletes := by
  refine ⟨step_total, fun s a v rest hscript => ?_, fun s a rest hscript => ?_, fun s rest hscript => ?_⟩
  · obtain ⟨t, r, hw, hr⟩ := hostWrite_answers { s with script := rest } a v
    obtain ⟨hrest, hresp⟩ := hostWrite_script _ t a v r hw
    have hitem : r = .ok ∨ r = .fault ∧ ∀ x, t.item x = s.item x :=
      hr.imp_right fun ⟨hfault, ht⟩ => ⟨hfault, fun x => by rw [ht]; cases x <;> rfl⟩
    exact ⟨t, r, hw, (step_cons s _ rest hscript).trans (transact_write hw), hrest, hresp, hitem,
      fun ha => hostWrite_err (s := { s with script := rest }) ha hw⟩
  · refine ⟨step_cons s _ rest hscript, ?_⟩
    obtain ⟨-, hr⟩ | ⟨-, v, -, hr⟩ := hostRead_cases { s with script := rest } a
    · exact .inl hr
    · exact .inr ⟨v, hr⟩
  · exact ⟨_, step_cons s _ rest hscript, rfl, cleared_item _, cleared_script _, cleared_responses _⟩

/-! ## Repeating an access (20_memory.md R49)

A command writes none of the registers it reads (30_encoding.md R63), so on the state it left it takes the same case with
the same values. -/

theorem b32dec_b32dec (s : State) : b32dec (b32dec s) = b32dec s := by
  obtain ⟨out, hd, h⟩ | ⟨hd, h⟩ := b32dec_cases s <;> rw [h] <;> simp only [b32dec, hd] <;> rfl

theorem tcnt_tcnt (s : State) : tcnt (tcnt s) = tcnt s := by
  obtain ⟨ht, h⟩ | ⟨t, ht, h0, h⟩ | ⟨t, ht, h0, h⟩ := tcnt_cases s <;> rw [h]
  · simp only [tcnt, ht]; rfl
  · simp only [tcnt, ht, timeCounter_zero t _ h0]; rfl
  · simp only [tcnt, ht, timeCounter_pos t _ h0]; rfl

theorem ctrenc_ctrenc (cfg : Config) (s : State) : ctrenc cfg (ctrenc cfg s) = ctrenc cfg s := by
  obtain ⟨hc, h⟩ | ⟨c, hc, hm, hle, h⟩ | ⟨c, block, hc, hb, h⟩ := ctrenc_cases cfg s <;> rw [h]
  · simp only [ctrenc, hc]; rfl
  · simp only [ctrenc, hc, hm, counterEncode_overflow c hle]; rfl
  · simp only [ctrenc, hc, hb]; rfl

theorem trunc_trunc (s : State) : trunc (trunc s) = trunc s := by
  obtain ⟨hd, h⟩ | ⟨hd, h⟩ := trunc_cases s <;> rw [h]
  · exact dif_pos hd
  · exact dif_neg hd

theorem fmt_fmt (cfg : Config) (s : State) : fmt cfg (fmt cfg s) = fmt cfg s := by
  obtain ⟨hv, h⟩ | ⟨v, hv, hn, h⟩ | ⟨v, hv, hn, hn', h⟩ := fmt_cases cfg s <;> rw [h]
  · simp only [fmt, hv]; rfl
  · simp only [fmt, hv, format_bad _ v _ hn]; rfl
  · simp only [fmt, hv, format_good _ v _ hn hn']; rfl

theorem gen_gen (cfg : Config) (s : State) : gen cfg (gen cfg s) = gen cfg s := by
  obtain ⟨ht, h⟩ | ⟨t, e, ht, hg, h⟩ | ⟨t, g, ht, hg, h⟩ := gen_cases cfg s <;> rw [h]
  · exact gen_of_none cfg (genFailed s 6) ht
  · exact gen_of_error cfg (genFailed s e.code) t e ht hg
  · exact gen_of_ok cfg (genDone s g) t g ht hg

theorem exec_again {i : Instr} {s t : State} (h : exec i s = .next t) : exec i t = .next t := by
  cases i with
  | b32dec => cases h; exact congrArg Host.Outcome.next (b32dec_b32dec s)
  | tcnt => cases h; exact congrArg Host.Outcome.next (tcnt_tcnt s)
  | ctrenc => cases h; exact congrArg Host.Outcome.next (ctrenc_ctrenc _ s)
  | hmac => cases h; rfl
  | trunc => cases h; exact congrArg Host.Outcome.next (trunc_trunc s)
  | fmt => cases h; exact congrArg Host.Outcome.next (fmt_fmt _ s)
  | gen => cases h; exact congrArg Host.Outcome.next (gen_gen _ s)
  | clr => cases h; rfl

theorem runWord_again {w : Word32} {s t : State} (h : runWord w s = .next t) : runWord w t = .next t := by
  obtain ⟨i, hi, hexec⟩ | ⟨hillegal, rfl⟩ := runWord_cases h
  · rw [runWord_ok w i t hi]; exact exec_again hexec
  · exact runWord_illegal w _ hillegal

/-- A scalar or length write sets its item to a value that does not depend on the state, so it sets it to the same again
(20_memory.md R44, R45). -/
theorem acceptWrite_again {s t : State} {a : RegNum} {v : Word64}
    (h : acceptWrite Config.totpcore s a v = .ok (.stored t)) (ha : ∀ b, a ≠ (Reg.push b).number) :
    hostWrite t a v = .next (t, .ok) := by
  obtain ⟨rfl, rfl⟩ | ⟨rfl, hv, rfl⟩ | ⟨rfl, hv, rfl⟩ | ⟨rfl, rfl⟩ | ⟨rfl, hv, rfl⟩ | ⟨b, rfl, rfl, rfl⟩ |
    ⟨b, rfl, -⟩ := acceptWrite_stored _ s t a v h
  · exact hostWrite_number _ _ .timestamp v rfl rfl v.isLt rfl
  · exact hostWrite_number _ _ .timestep v rfl rfl hv rfl
  · exact hostWrite_number _ _ .digits v rfl rfl hv rfl
  · exact hostWrite_number _ _ .counter v rfl rfl v.isLt rfl
  · exact hostWrite_number _ _ .trunc v rfl rfl hv rfl
  · rw [hostWrite_len_zero, setBuf_setBuf]
  · exact absurd rfl (ha b)

theorem hostWrite_again {s t : State} {a : RegNum} {v : Word64} (h : hostWrite s a v = .next (t, .ok))
    (ha : ∀ b, a ≠ (Reg.push b).number) : hostWrite t a v = .next (t, .ok) := by
  obtain ⟨_, -, hw⟩ | ⟨u, hu, hw⟩ | ⟨w, u, rfl, hv, rfl, hrun, hw⟩ := hostWrite_cases s a v <;> cases hw.symm.trans h
  · exact acceptWrite_again hu ha
  · have hdata : (v.setWidth 32).setWidth 64 = v := BitVec.eq_of_toNat_eq (by simp; omega)
    have hagain := hostWrite_cmd t t _ (runWord_again hrun)
    rwa [hdata] at hagain

/-- An accepted push appends: it was in range and its buffer was not full (20_memory.md R46). -/
theorem hostWrite_push_length {s t : State} {b : LoadBuf} {v : Word64}
    (h : hostWrite s (Reg.push b).number v = .next (t, .ok)) :
    (t.buf b.buf).length = (s.buf b.buf).length + 1 := by
  by_cases hrange : 2 ^ 8 ≤ v.toNat
  · cases (hostWrite_outOfRange (r := .push b) rfl hrange).symm.trans h
  by_cases hfull : b.buf.capacity Config.totpcore ≤ (s.buf b.buf).length
  · cases (hostWrite_push_full hfull).symm.trans h
  have hdata : (v.setWidth 8).setWidth 64 = v := BitVec.eq_of_toNat_eq (by simp; omega)
  have hpush := hostWrite_push s b (v.setWidth 8) (by omega)
  rw [hdata] at hpush
  cases hpush.symm.trans h
  simp

/-- Settles O50: a repeated write finds what it wrote, a repeated command its operands. -/
theorem allButPushesAreIdempotent : Obligations.AllButPushesAreIdempotent := by
  refine ⟨fun s t a v h ha => hostWrite_again h ?_, fun s t b v => hostWrite_push_length, fun s a => ⟨_, rfl, ?_⟩⟩
  · rintro b rfl
    cases b <;> exact ha (by decide)
  · intro x
    cases x <;> rfl

end Sys2Proof.Machine

/-! PROOFS. Family 30_encoding.md: command words (O1, O2, O3, O4), the Base32 alphabet (O9), the VALID view (O44), the
columns of the commands (O35), and the host's script lines LDSTR, RDBUF and TOTP (O54, O55, O56). -/

namespace Sys2Proof.Machine

open Sys2Proof

/-! ## Command words (30_encoding.md R60 to R62) -/

/-- All 32 bits of a command word count (30_encoding.md R61). -/
theorem decode_eq_ok_iff (w : Word32) (i : Instr) : decode w = .ok i ↔ w = encode i := by
  rw [decode_ok_toNat, BitVec.toNat_inj]

theorem encode_wf (i : Instr) : CommandWord.wf (encode i) = true := by
  cases i <;> rfl

/-- RSV 0 and OPC in 1 to 8 bound the whole word (30_encoding.md R60, R61). -/
theorem commandWord_wf_bounds {w : Word32} (h : CommandWord.wf w = true) : 1 ≤ w.toNat ∧ w.toNat ≤ 8 := by
  simp only [CommandWord.wf, Bool.and_eq_true, beq_iff_eq, decide_eq_true_eq] at h
  obtain ⟨⟨hrsv, hlow⟩, hhigh⟩ := h
  have hquot : w.toNat / 256 = 0 := by rw [← rsv_toNat, hrsv]; rfl
  rw [opc_toNat] at hlow hhigh
  omega

/-- The column "OPC" of 30_encoding.md R61 has no gap. -/
theorem exists_encode_toNat : ∀ n, 1 ≤ n → n ≤ 8 → ∃ i, (encode i).toNat = n
  | 0, h, _ => absurd h (by decide)
  | 1, _, _ => ⟨.b32dec, rfl⟩
  | 2, _, _ => ⟨.tcnt, rfl⟩
  | 3, _, _ => ⟨.ctrenc, rfl⟩
  | 4, _, _ => ⟨.hmac, rfl⟩
  | 5, _, _ => ⟨.trunc, rfl⟩
  | 6, _, _ => ⟨.fmt, rfl⟩
  | 7, _, _ => ⟨.gen, rfl⟩
  | 8, _, _ => ⟨.clr, rfl⟩
  | _ + 9, _, h => absurd h (by omega)

theorem commandWord_wf_iff (w : Word32) : CommandWord.wf w = true ↔ ∃ i, encode i = w := by
  constructor
  · intro h
    obtain ⟨hlow, hhigh⟩ := commandWord_wf_bounds h
    obtain ⟨i, hi⟩ := exists_encode_toNat w.toNat hlow hhigh
    exact ⟨i, BitVec.eq_of_toNat_eq hi⟩
  · rintro ⟨i, rfl⟩
    exact encode_wf i

/-- Settles O2: a word decodes to a command exactly when it is the command's encoding, and the encodings fill the range
that well-formedness leaves. -/
theorem decodeAndEncodeAreInverse : Obligations.DecodeAndEncodeAreInverse :=
  ⟨fun i _ => (decode_eq_ok_iff _ i).mpr rfl, fun w i h => ((decode_eq_ok_iff w i).mp h).symm, commandWord_wf_iff⟩

/-- Settles O1: `decode_eq_ok_iff` at each of the eight commands. -/
theorem commandWordSelectsCommandExactly : Obligations.CommandWordSelectsCommandExactly := fun w =>
  ⟨decode_eq_ok_iff w .b32dec, decode_eq_ok_iff w .tcnt, decode_eq_ok_iff w .ctrenc, decode_eq_ok_iff w .hmac,
    decode_eq_ok_iff w .trunc, decode_eq_ok_iff w .fmt, decode_eq_ok_iff w .gen, decode_eq_ok_iff w .clr⟩

/-- Settles O3, by evaluation of the decoder on the six words. -/
theorem opcodeTableWordsDecode : Obligations.OpcodeTableWordsDecode :=
  ⟨rfl, rfl, rfl, rfl, rfl, rfl⟩

/-- Settles O4: no command decodes from the word, so it runs as an illegal word inside an accepted CMD write. -/
theorem illegalWordSetsErrSevenOnly : Obligations.IllegalWordSetsErrSevenOnly := by
  intro s w hw
  obtain ⟨e, he⟩ := decode_error_of w hw
  have hillegal : ∀ i, decode w ≠ .ok i := fun i hi => by cases he.symm.trans hi
  exact hostWrite_cmd s _ w (runWord_illegal w s hillegal)

/-! ## The VALID view (30_encoding.md R65) -/

theorem validFlag_eq {α : Type} [DecidableEq α] (o : Option α) : validFlag o = if o = none then 0 else 1 := by
  cases o <;> simp [validFlag]

theorem validFlag_le_one {α : Type} (o : Option α) : validFlag o ≤ 1 := by
  cases o <;> simp [validFlag]

/-- Three flags fit three bits, so the view keeps the sum. -/
theorem valid_toNat (s : State) :
    s.valid.toNat = validFlag s.timestamp + 2 * validFlag s.counter + 4 * validFlag s.trunc := by
  have ht := validFlag_le_one s.timestamp
  have hc := validFlag_le_one s.counter
  have hv := validFlag_le_one s.trunc
  rw [State.valid, BitVec.toNat_ofNat, Nat.mod_eq_of_lt (by omega)]

/-- Settles O44: the read answers the view, whose value is the sum of the flags. -/
theorem validRegisterShowsTheFlags : Obligations.ValidRegisterShowsTheFlags := by
  intro s
  refine ⟨_, hostRead_valid s, ?_⟩
  rw [(setWidth_roundtrip 3 s.valid (by omega)).1, valid_toNat, validFlag_eq, validFlag_eq, validFlag_eq]

/-! ## The Base32 alphabet (30_encoding.md R67) -/

/-- The alphabet of 30_encoding.md R67 in value order, as character codes. -/
def b32Alphabet : List Nat := "ABCDEFGHIJKLMNOPQRSTUVWXYZ234567".toList.map Char.toNat

/-- The letters carry the values 0 to 25, the digits 2 to 7 the values 26 to 31. -/
theorem b32Alphabet_eq :
    b32Alphabet = ((List.range 26).map fun v => 0x41 + v) ++ (List.range 6).map fun v => 0x32 + v := by
  decide

theorem b32Alphabet_getElem? (v n : Nat) :
    b32Alphabet[v]? = some n ↔ (v < 26 ∧ n = 0x41 + v) ∨ (26 ≤ v ∧ v < 32 ∧ n + 26 = 0x32 + v) := by
  rw [b32Alphabet_eq, List.getElem?_append]
  split <;> simp [List.getElem?_eq_some_iff] at * <;> omega

theorem mem_b32Alphabet (n : Nat) : n ∈ b32Alphabet ↔ (0x41 ≤ n ∧ n ≤ 0x5A) ∨ (0x32 ≤ n ∧ n ≤ 0x37) := by
  constructor
  · intro h
    obtain ⟨v, hv⟩ := List.mem_iff_getElem?.mp h
    have := (b32Alphabet_getElem? v n).mp hv
    omega
  · rintro (h | h)
    · exact List.mem_iff_getElem?.mpr ⟨n - 0x41, (b32Alphabet_getElem? _ n).mpr (by omega)⟩
    · exact List.mem_iff_getElem?.mpr ⟨n - 0x32 + 26, (b32Alphabet_getElem? _ n).mpr (by omega)⟩

/-- Everything `b32Class` can answer, with the codes it answers it on. -/
theorem b32Class_cases (c : Byte) :
    (b32Class c = .pad ∧ c.toNat = 0x3D) ∨
    (∃ v : BitVec 5, b32Class c = .val v ∧ v.toNat < 26 ∧ (c.toNat = 0x41 + v.toNat ∨ c.toNat = 0x61 + v.toNat)) ∨
    (∃ v : BitVec 5, b32Class c = .val v ∧ 26 ≤ v.toNat ∧ c.toNat + 26 = 0x32 + v.toNat) ∨
    (b32Class c = .invalid ∧ c.toNat ≠ 0x3D ∧ ¬ (0x41 ≤ c.toNat ∧ c.toNat ≤ 0x5A) ∧
      ¬ (0x61 ≤ c.toNat ∧ c.toNat ≤ 0x7A) ∧ ¬ (0x32 ≤ c.toNat ∧ c.toNat ≤ 0x37)) := by
  simp only [b32Class]
  split
  case isTrue h => exact .inl ⟨rfl, h⟩
  split
  case isTrue h => exact .inr (.inl ⟨_, rfl, by simp; omega, by simp; omega⟩)
  split
  case isTrue h => exact .inr (.inl ⟨_, rfl, by simp; omega, by simp; omega⟩)
  split
  case isTrue h => exact .inr (.inr (.inl ⟨_, rfl, by simp; omega, by simp; omega⟩))
  case isFalse hpad hupper hlower hdigit => exact .inr (.inr (.inr ⟨rfl, hpad, hupper, hlower, hdigit⟩))

/-- Settles O9: class by class, on the codes of each. -/
theorem base32AlphabetIsRfc4648 : Obligations.Base32AlphabetIsRfc4648 := by
  unfold Obligations.Base32AlphabetIsRfc4648
  intro alphabet c
  have hget (v n : Nat) : alphabet[v]? = some n ↔ _ := b32Alphabet_getElem? v n
  have hmem : c.toNat ∈ alphabet ↔ _ := mem_b32Alphabet c.toNat
  simp only [hget, hmem, show '='.toNat = 0x3D from rfl, show 'a'.toNat = 0x61 from rfl, show 'z'.toNat = 0x7A from rfl]
  obtain ⟨hc, h⟩ | ⟨v, hc, hv, h⟩ | ⟨v, hc, hv, h⟩ | ⟨hc, hpad, hupper, hlower, hdigit⟩ := b32Class_cases c <;>
    simp only [hc, reduceCtorEq, B32Class.val.injEq, false_iff, true_iff, ← BitVec.toNat_inj] <;>
    exact ⟨by omega, fun v' => by omega, by omega⟩

/-! ## Items (10_state.md R10) -/

/-- The item of an optional scalar determines it. -/
@[simp] theorem map_toNat_inj {n : Nat} (o o' : Option (BitVec n)) :
    o.map BitVec.toNat = o'.map BitVec.toNat ↔ o = o' :=
  (Option.map_injective fun _ _ => BitVec.eq_of_toNat_eq).eq_iff

@[simp] theorem agreeOn_nil (s t : State) : agreeOn [] s t := nofun

@[simp] theorem agreeOn_cons (x : Item) (xs : List Item) (s t : State) :
    agreeOn (x :: xs) s t ↔ s.item x = t.item x ∧ agreeOn xs s t :=
  List.forall_mem_cons

/-- Writing a buffer changes the one item the buffer is (10_state.md R24). -/
theorem item_setBuf {b : Buf} {x : Item} (s : State) (l : List Byte) (h : x ≠ b.item) :
    (s.setBuf b l).item x = s.item x := by
  cases b <;> cases x
  case secret.secret | key.key | msg.msg | digest.digest | code.code => exact absurd rfl h
  all_goals rfl

theorem item_withErr {x : Item} (s : State) (e : Byte) (h : x ≠ .err) :
    State.item { s with err := e } x = s.item x := by
  cases x
  case err => exact absurd rfl h
  all_goals rfl

/-! ## Column "writes" of the commands (30_encoding.md R63)

Each command ends in an update of the items of its column; what the update leaves unchanged does not depend on the values
it writes. -/

/-- The frame of B32DEC, CTRENC, HMAC and FMT, each with the buffer it writes. -/
theorem unchangedBut_setBuf_err (s : State) (b : Buf) (l : List Byte) (e : Byte) :
    unchangedBut [b.item, .err] s { s.setBuf b l with err := e } := by
  intro x hx
  simp only [List.mem_cons, List.not_mem_nil, or_false, not_or] at hx
  obtain ⟨hbuf, herr⟩ := hx
  rw [item_withErr _ e herr, item_setBuf s l hbuf]

/-- The frame of TCNT. -/
theorem unchangedBut_counter_err (s : State) (o : Option Word64) (e : Byte) :
    unchangedBut [.counter, .err] s { s with counter := o, err := e } := by
  intro x hx
  cases x
  case counter | err => exact absurd (by decide) hx
  all_goals rfl

/-- The frame of TRUNC. -/
theorem unchangedBut_trunc_err (s : State) (o : Option Word32) (e : Byte) :
    unchangedBut [.trunc, .err] s { s with trunc := o, err := e } := by
  intro x hx
  cases x
  case trunc | err => exact absurd (by decide) hx
  all_goals rfl

/-- The frame of GEN: its operand registers stay (45_generate_and_clear.md R131). -/
theorem unchangedBut_gen (cfg : Config) (s : State) : unchangedBut (writes .gen) s (gen cfg s) := by
  intro x hx
  cases x
  case timestamp | timestep | digits | secret =>
    obtain ⟨-, h⟩ | ⟨_, _, -, -, h⟩ | ⟨_, _, -, -, h⟩ := gen_cases cfg s <;> rw [h] <;> rfl
  all_goals exact absurd (by decide) hx

theorem exec_unchangedBut {i : Instr} {s t : State} (h : exec i s = .next t) : unchangedBut (writes i) s t := by
  cases i with
  | b32dec =>
    cases h
    have hframe (l e) : unchangedBut (writes .b32dec) s { s with key := l, err := e } :=
      unchangedBut_setBuf_err s .key l e
    obtain ⟨_, -, h⟩ | ⟨-, h⟩ := b32dec_cases s <;> rw [h] <;> exact hframe _ _
  | tcnt =>
    cases h
    obtain ⟨-, h⟩ | ⟨_, -, -, h⟩ | ⟨_, -, -, h⟩ := tcnt_cases s <;> rw [h] <;> exact unchangedBut_counter_err s _ _
  | ctrenc =>
    cases h
    have hframe (l e) : unchangedBut (writes .ctrenc) s { s with msg := l, err := e } :=
      unchangedBut_setBuf_err s .msg l e
    obtain ⟨-, h⟩ | ⟨_, -, -, -, h⟩ | ⟨_, _, -, -, h⟩ := ctrenc_cases Config.totpcore s <;> rw [h] <;> exact hframe _ _
  | hmac =>
    cases h
    exact unchangedBut_setBuf_err s .digest (hmacSha1 s.key s.msg) 0
  | trunc =>
    cases h
    obtain ⟨_, h⟩ | ⟨-, h⟩ := trunc_cases s <;> rw [h] <;> exact unchangedBut_trunc_err s _ _
  | fmt =>
    cases h
    have hframe (l e) : unchangedBut (writes .fmt) s { s with code := l, err := e } :=
      unchangedBut_setBuf_err s .code l e
    obtain ⟨-, h⟩ | ⟨_, -, -, h⟩ | ⟨_, -, -, -, h⟩ := fmt_cases Config.totpcore s <;> rw [h] <;> exact hframe _ _
  | gen =>
    cases h
    exact unchangedBut_gen _ s
  | clr =>
    intro x hx
    cases x <;> exact absurd (by decide) hx

/-! ## Column "reads" of the commands (30_encoding.md R63)

Each command's result is a function of the items of its column, so on two states that agree on them it takes the same case
and writes the same values. -/

theorem b32dec_agreeOn {s s' : State} (h : agreeOn (reads .b32dec) s s') :
    agreeOn (writes .b32dec) (b32dec s) (b32dec s') := by
  have hsecret : s.secret = s'.secret := by simpa [reads, State.item] using h
  simp only [b32dec, hsecret]
  split <;> simp [writes, State.item, failCommand_b32dec]

theorem tcnt_agreeOn {s s' : State} (h : agreeOn (reads .tcnt) s s') :
    agreeOn (writes .tcnt) (tcnt s) (tcnt s') := by
  obtain ⟨htime, hstep⟩ : s.timestamp = s'.timestamp ∧ s.timestep = s'.timestep := by
    simpa [reads, State.item, BitVec.toNat_inj] using h
  simp only [tcnt, htime, hstep]
  split <;> [skip; split] <;> simp [writes, State.item, failCommand_tcnt]

theorem ctrenc_agreeOn (cfg : Config) {s s' : State} (h : agreeOn (reads .ctrenc) s s') :
    agreeOn (writes .ctrenc) (ctrenc cfg s) (ctrenc cfg s') := by
  have hcounter : s.counter = s'.counter := by simpa [reads, State.item] using h
  simp only [ctrenc, hcounter]
  split <;> [skip; split] <;> simp [writes, State.item, failCommand_ctrenc]

theorem hmac_agreeOn {s s' : State} (h : agreeOn (reads .hmac) s s') :
    agreeOn (writes .hmac) (hmac s) (hmac s') := by
  obtain ⟨hkey, hmsg⟩ : s.key = s'.key ∧ s.msg = s'.msg := by simpa [reads, State.item] using h
  simp [hmac_eq, writes, State.item, hkey, hmsg]

theorem trunc_agreeOn {s s' : State} (h : agreeOn (reads .trunc) s s') :
    agreeOn (writes .trunc) (trunc s) (trunc s') := by
  have hdigest : s.digest = s'.digest := by simpa [reads, State.item] using h
  simp only [trunc, hdigest]
  split <;> simp [writes, State.item, failCommand_trunc]

theorem fmt_agreeOn (cfg : Config) {s s' : State} (h : agreeOn (reads .fmt) s s') :
    agreeOn (writes .fmt) (fmt cfg s) (fmt cfg s') := by
  obtain ⟨hvalue, hdigits⟩ : s.trunc = s'.trunc ∧ s.digits = s'.digits := by
    simpa [reads, State.item, BitVec.toNat_inj] using h
  simp only [fmt, hvalue, hdigits]
  split <;> [skip; split] <;> simp [writes, State.item, failCommand_fmt]

theorem gen_agreeOn (cfg : Config) {s s' : State} (h : agreeOn (reads .gen) s s') :
    agreeOn (writes .gen) (gen cfg s) (gen cfg s') := by
  obtain ⟨hsecret, htime, hstep, hdigits⟩ : s.secret = s'.secret ∧ s.timestamp = s'.timestamp ∧
      s.timestep = s'.timestep ∧ s.digits = s'.digits := by simpa [reads, State.item, BitVec.toNat_inj] using h
  simp only [gen, hsecret, htime, hstep, hdigits]
  split <;> [skip; split] <;> simp [writes, State.item, failCommand_gen]

theorem clr_agreeOn (s s' : State) : agreeOn (writes .clr) (clr s) (clr s') := fun x _ =>
  (cleared_item s x).trans (cleared_item s' x).symm

theorem exec_agreeOn {i : Instr} {s s' t t' : State} (hreads : agreeOn (reads i) s s') (h : exec i s = .next t)
    (h' : exec i s' = .next t') : agreeOn (writes i) t t' := by
  cases i with
  | b32dec => cases h; cases h'; exact b32dec_agreeOn hreads
  | tcnt => cases h; cases h'; exact tcnt_agreeOn hreads
  | ctrenc => cases h; cases h'; exact ctrenc_agreeOn _ hreads
  | hmac => cases h; cases h'; exact hmac_agreeOn hreads
  | trunc => cases h; cases h'; exact trunc_agreeOn hreads
  | fmt => cases h; cases h'; exact fmt_agreeOn _ hreads
  | gen => cases h; cases h'; exact gen_agreeOn _ hreads
  | clr => cases h; cases h'; exact clr_agreeOn s s'

/-- Settles O35, from the frame and the dependence of each command. -/
theorem commandsTouchOnlyTheirColumns : Obligations.CommandsTouchOnlyTheirColumns := by
  refine ⟨fun i s => ?_, fun i s s' t t' => exec_agreeOn⟩
  obtain ⟨t, ht⟩ := exec_total i s
  exact ⟨t, ht, exec_unchangedBut ht⟩

/-! ## The host's responses are read by no transaction (log 1) -/

/-- The eleven items and the model's own two fields are the whole state (10_state.md R10, log 1). -/
theorem eq_of_items {s t : State} (hitems : ∀ x, s.item x = t.item x) (hscript : s.script = t.script)
    (hresponses : s.responses = t.responses) : s = t := by
  have htimestamp := hitems .timestamp
  have htimestep := hitems .timestep
  have hdigits := hitems .digits
  have hcounter := hitems .counter
  have htrunc := hitems .trunc
  have herr := hitems .err
  have hsecret := hitems .secret
  have hkey := hitems .key
  have hmsg := hitems .msg
  have hdigest := hitems .digest
  have hcode := hitems .code
  cases s
  cases t
  simp_all [State.item, BitVec.toNat_inj]

@[simp] theorem item_withResponses (s : State) (q : List Resp) (x : Item) :
    State.item { s with responses := q } x = s.item x := by
  cases x <;> rfl

@[simp] theorem buf_withResponses (s : State) (q : List Resp) (b : Buf) :
    State.buf { s with responses := q } b = s.buf b := by
  cases b <;> rfl

theorem setBuf_withResponses (s : State) (q : List Resp) (b : Buf) (l : List Byte) :
    State.setBuf { s with responses := q } b l = { s.setBuf b l with responses := q } := by
  cases b <;> rfl

/-- Two states with the same items are left with the same items by a command (30_encoding.md R63). -/
theorem exec_item_congr {i : Instr} {s s' t t' : State} (hitems : ∀ x, s.item x = s'.item x)
    (h : exec i s = .next t) (h' : exec i s' = .next t') (x : Item) : t.item x = t'.item x := by
  by_cases hx : x ∈ writes i
  · exact exec_agreeOn (fun y _ => hitems y) h h' x hx
  · rw [exec_unchangedBut h x hx, exec_unchangedBut h' x hx, hitems x]

theorem exec_withResponses {i : Instr} {s t : State} (q : List Resp) (h : exec i s = .next t) :
    exec i { s with responses := q } = .next { t with responses := q } := by
  obtain ⟨u, hu⟩ := exec_total i { s with responses := q }
  obtain ⟨htscript, -⟩ := exec_script i s t h
  obtain ⟨huscript, huresponses⟩ := exec_script i _ u hu
  have hitems : ∀ x, u.item x = t.item x := exec_item_congr (item_withResponses s q) hu h
  rw [hu, eq_of_items (t := { t with responses := q }) (fun x => (hitems x).trans (item_withResponses t q x).symm)
    (huscript.trans htscript.symm) huresponses]

theorem hostRead_withResponses (s : State) (q : List Resp) (a : RegNum) :
    hostRead { s with responses := q } a = hostRead s a := by
  have hread (r : Reg) : readReg { s with responses := q } r = readReg s r := by
    cases r with
    | len b | data b i => simp only [readReg, buf_withResponses]
    | _ => rfl
  simp only [hostRead, acceptRead, hread]

/-! ## Scripts of accepted writes -/

/-- Every transaction of `xs` is answered `OK`, and together they take the items and the script of `s` to those of `t`,
whatever the host was answered before. -/
def AllAccepted (xs : List Txn) (s t : State) : Prop :=
  ∀ q, runScript xs { s with responses := q } =
    .next { t with responses := List.replicate xs.length .ok ++ q }

theorem allAccepted_nil (s : State) : AllAccepted [] s s := fun _ => rfl

theorem allAccepted_write {s t : State} {a : RegNum} {v : Word64}
    (h : ∀ q, hostWrite { s with responses := q } a v = .next ({ t with responses := q }, .ok)) :
    AllAccepted [.write a v] s t := by
  intro q
  rw [runScript, transact_write (h q)]
  rfl

theorem AllAccepted.append {xs ys : List Txn} {s t u : State} (h : AllAccepted xs s t) (h' : AllAccepted ys t u) :
    AllAccepted (xs ++ ys) s u := by
  intro q
  rw [runScript_append xs ys _ _ (h q), h', ← List.append_assoc, List.replicate_append_replicate, List.length_append,
    Nat.add_comm]

/-- A push appends its byte (20_memory.md R46). -/
theorem allAccepted_push {s : State} {b : LoadBuf} (x : Byte)
    (h : (s.buf b.buf).length < b.buf.capacity Config.totpcore) :
    AllAccepted [wr (.push b) (x.setWidth 64)] s (s.setBuf b.buf (s.buf b.buf ++ [x])) := by
  refine allAccepted_write fun q => ?_
  rw [hostWrite_push _ b x (by rwa [buf_withResponses]), buf_withResponses, setBuf_withResponses]

/-- Pushes append a list that the buffer has room for, element by element (30_encoding.md R71). -/
theorem allAccepted_pushes {b : LoadBuf} {l : List Byte} {s : State}
    (h : (s.buf b.buf).length + l.length ≤ b.buf.capacity Config.totpcore) :
    AllAccepted (l.map fun x => wr (.push b) (x.setWidth 64)) s (s.setBuf b.buf (s.buf b.buf ++ l)) := by
  induction l generalizing s with
  | nil =>
    have hs : s.setBuf b.buf (s.buf b.buf ++ []) = s := by rw [List.append_nil]; cases b <;> rfl
    rw [hs]
    exact allAccepted_nil s
  | cons x l ih =>
    rw [List.length_cons] at h
    have hpush := allAccepted_push x (s := s) (b := b) (by omega)
    have hrest := ih (s := s.setBuf b.buf (s.buf b.buf ++ [x])) (by simp; omega)
    simpa using hpush.append hrest

/-- LDSTR and LDHEX (30_encoding.md R71): the length write empties the buffer, so the pushes start from nothing. -/
theorem allAccepted_load {b : LoadBuf} {l : List Byte} (s : State)
    (h : l.length ≤ b.buf.capacity Config.totpcore) : AllAccepted (load b l) s (s.setBuf b.buf l) := by
  have hempty : AllAccepted [wr (.len b.buf) 0] s (s.setBuf b.buf []) :=
    allAccepted_write fun q => by rw [hostWrite_len_zero, setBuf_withResponses]
  have hpushes := allAccepted_pushes (b := b) (l := l) (s := s.setBuf b.buf []) (by simpa using h)
  rw [buf_setBuf_same, setBuf_setBuf, List.nil_append] at hpushes
  exact hempty.append hpushes

/-- Settles O54: `allAccepted_load` from the responses the host has. -/
theorem loadingABufferReplacesIt : Obligations.LoadingABufferReplacesIt := by
  intro s b l hl
  have hload := allAccepted_load s hl s.responses
  rwa [load, List.length_cons, List.length_map] at hload

/-! ## Reading a buffer (30_encoding.md R71, `RDBUF`) -/

/-- Reads are answered from one and the same state: none changes an item, and none reads what was answered before
(20_memory.md R41). -/
theorem runScript_reads (as : List RegNum) (s : State) :
    runScript (as.map Txn.read) s = .next { s with responses := (as.map (hostRead s)).reverse ++ s.responses } := by
  induction as generalizing s with
  | nil => rfl
  | cons a as ih =>
    have hsame : hostRead (s.respond (hostRead s a)) = hostRead s := funext (hostRead_withResponses s _)
    rw [List.map_cons, runScript, transact]
    simp only [ih, hsame]
    simp [State.respond]

/-- The window of a buffer covers its capacity (20_memory.md R57). -/
theorem Buf.capacity_le_window (b : Buf) : b.capacity Config.totpcore ≤ b.window := by
  cases b <;> decide

theorem hostRead_data {s : State} {b : Buf} {i : Nat} (hw : i < b.window) (hi : i < (s.buf b).length) :
    hostRead s (Reg.data b i).number = .value ((s.buf b)[i].setWidth 64) :=
  hostRead_number (decide_eq_true hw) (by simp only [readReg, List.getElem?_eq_getElem hi])

/-- The data registers below the length of a buffer read as its elements, in order (20_memory.md R47). -/
theorem hostRead_data_range {s : State} {b : Buf} (h : (s.buf b).length ≤ b.window) :
    ((List.range (s.buf b).length).map fun i => hostRead s (Reg.data b i).number) =
      (s.buf b).map fun x => .value (x.setWidth 64) := by
  apply List.ext_getElem
  · simp
  · intro i hi _
    have hlen : i < (s.buf b).length := by simpa using hi
    simp [hostRead_data (hlen.trans_le h) hlen]

/-- Settles O55: RDBUF is a list of reads, which the length register and the data registers answer. -/
theorem readingABufferAnswersItsContent : Obligations.ReadingABufferAnswersItsContent := by
  intro s b hs
  obtain ⟨hcap, -⟩ := wf_buf_fits hs b
  have hdata := hostRead_data_range (hcap.trans b.capacity_le_window)
  have hscript : rdbuf b (s.buf b).length =
      ((Reg.len b).number :: (List.range (s.buf b).length).map fun i => (Reg.data b i).number).map Txn.read := by
    simp [rdbuf, rd]
  rw [hscript, runScript_reads, List.map_cons, List.map_map, hostRead_len, Function.comp_def, hdata, List.reverse_cons,
    List.append_assoc, List.singleton_append]

/-! ## The host's TOTP sequence (30_encoding.md R71, `TOTP`) -/

theorem allAccepted_timestamp (s : State) (v : Word64) : AllAccepted [wr .timestamp v] s { s with timestamp := some v } :=
  allAccepted_write fun _ => hostWrite_number _ _ .timestamp v rfl rfl v.isLt rfl

/-- The optional line WR TIMESTEP. -/
theorem allAccepted_timestep (s : State) (o : Option Word32) :
    AllAccepted (o.toList.map fun v => wr .timestep (v.setWidth 64)) s { s with timestep := o.getD s.timestep } := by
  cases o with
  | none => exact allAccepted_nil s
  | some v =>
    obtain ⟨hn, hw⟩ := setWidth_roundtrip 32 v (by omega)
    exact allAccepted_write fun _ => hostWrite_number _ _ .timestep _ rfl rfl (hn ▸ v.isLt) (by rw [writeInRange, hw]; rfl)

/-- The optional line WR DIGITS. -/
theorem allAccepted_digits (s : State) (o : Option Byte) :
    AllAccepted (o.toList.map fun v => wr .digits (v.setWidth 64)) s { s with digits := o.getD s.digits } := by
  cases o with
  | none => exact allAccepted_nil s
  | some v =>
    obtain ⟨hn, hw⟩ := setWidth_roundtrip 8 v (by omega)
    exact allAccepted_write fun _ => hostWrite_number _ _ .digits _ rfl rfl (hn ▸ v.isLt) (by rw [writeInRange, hw]; rfl)

/-- The line CMD (30_encoding.md R70) is answered `OK` whatever the command's outcome (20_memory.md R48). -/
theorem allAccepted_cmd {i : Instr} {s t : State} (h : exec i s = .next t) : AllAccepted [cmd i] s t := by
  refine allAccepted_write fun q => hostWrite_cmd _ _ (encode i) ?_
  rw [runWord_ok _ i _ ((decode_eq_ok_iff _ i).mpr rfl)]
  exact exec_withResponses q h

/-- The lines of TOTP before RD ERR. -/
def totpWrites (secret : List Byte) (t : Word64) (step : Option Word32) (digits : Option Byte) : List Txn :=
  load .secret secret ++ [wr .timestamp t]
    ++ (step.toList.map fun x => wr .timestep (x.setWidth 64))
    ++ (digits.toList.map fun x => wr .digits (x.setWidth 64))
    ++ [cmd .gen]

theorem totp_eq (secret : List Byte) (t : Word64) (step : Option Word32) (digits : Option Byte) :
    totp secret t step digits = totpWrites secret t step digits ++ [rd .err] := by
  simp [totp, totpWrites]

/-- The writes of TOTP set GEN's operands, each in its register, and run GEN. -/
theorem allAccepted_totpWrites {secret : List Byte} {s g : State} (t : Word64) (step : Option Word32)
    (digits : Option Byte) (hlen : secret.length ≤ 256)
    (hgen : exec .gen { s with secret := secret, timestamp := some t, timestep := step.getD s.timestep,
                               digits := digits.getD s.digits } = .next g) :
    AllAccepted (totpWrites secret t step digits) s g := by
  have hsecret := allAccepted_load (b := .secret) s hlen
  have htimestamp := hsecret.append (allAccepted_timestamp _ t)
  have htimestep := htimestamp.append (allAccepted_timestep _ step)
  have hdigits := htimestep.append (allAccepted_digits _ digits)
  exact hdigits.append (allAccepted_cmd hgen)

theorem hostRead_err (s : State) : hostRead s Reg.err.number = .value (s.err.setWidth 64) :=
  hostRead_number rfl rfl

/-- Settles O56: after the accepted writes of the sequence, RD ERR answers the ERR that GEN left. -/
theorem totpSequenceIsGenOnItsOperands : Obligations.TotpSequenceIsGenOnItsOperands := by
  intro s secret t step digits hlen
  obtain ⟨g, hgen⟩ := exec_total .gen { s with
    secret := secret, timestamp := some t, timestep := step.getD s.timestep, digits := digits.getD s.digits }
  have hwrites := allAccepted_totpWrites t step digits hlen hgen s.responses
  have hrun : runScript (totp secret t step digits) s = .next { g with
      responses := .value (g.err.setWidth 64) ::
        (List.replicate (totpWrites secret t step digits).length .ok ++ s.responses) } := by
    rw [totp_eq, runScript_append _ _ _ _ hwrites, rd, runScript, transact, hostRead_err]
    rfl
  have hcount : (totp secret t step digits).length - 1 = (totpWrites secret t step digits).length := by simp [totp_eq]
  exact ⟨_, g, hgen, hrun, item_withResponses g _, by rw [hcount]⟩

end Sys2Proof.Machine

/-! PROOFS. Family 40_base32_decoder.md: the closed form of the decoder (O10) and its length (O12), the command B32DEC
(O11), case and padding (O13), prefixes (O14), the round trip (O15), and the width of the accumulator (O16). -/

namespace Sys2Proof.Machine

open Sys2Proof

/-! ## The decoder as its closed form (40_base32_decoder.md R81) -/

theorem b32Decode_eq (s : List Byte) :
    b32Decode s = if b32HasInvalid s then .error .invalidEncoding else .ok (b32Closed (b32Values s)) := by
  cases h : b32HasInvalid s with
  | true => exact b32Decode_of_invalid s h
  | false => exact b32Decode_of_valid s h

/-- Settles O10, from the loop's invariant `b32Loop_eq`. -/
theorem base32DecodeIsTheClosedForm : Obligations.Base32DecodeIsTheClosedForm := b32Decode_eq

/-- Settles O11: the two outcomes of B32DEC, each on the decoder's answer. -/
theorem b32decDecodesSecretIntoKey : Obligations.B32decDecodesSecretIntoKey := by
  refine ⟨rfl, fun s => ⟨fun h => ?_, fun h => ?_⟩⟩
  · rw [exec_b32dec, b32dec, b32Decode_of_valid _ h]
    rfl
  · rw [exec_b32dec, b32dec, b32Decode_of_invalid _ h]
    rfl

/-- Five bits are no whole byte. -/
theorem b32Decode_singleton {c : Byte} {v : BitVec 5} (h : b32Class c = .val v) : b32Decode [c] = .ok [] := by
  simp [b32Decode, b32Loop, h]

/-- Settles O12: the length is the closed form's, and the legality of the record bounds it by KEY_MAX. -/
theorem base32DecodeLength : Obligations.Base32DecodeLength := by
  refine ⟨fun s out h => ?_, fun cfg s out hcfg hs h => ?_, rfl, fun c v => b32Decode_singleton⟩
  · obtain ⟨-, rfl⟩ := b32Decode_ok s out h
    exact b32Closed_length _
  · have hout := b32Decode_length_le s out h
    obtain ⟨hkey, -⟩ := Config.legal_bounds hcfg
    omega

/-! ## Appended lists -/

@[simp] theorem b32Values_append (s u : List Byte) : b32Values (s ++ u) = b32Values s ++ b32Values u :=
  List.filterMap_append

@[simp] theorem b32HasInvalid_append (s u : List Byte) :
    b32HasInvalid (s ++ u) = (b32HasInvalid s || b32HasInvalid u) :=
  List.any_append

@[simp] theorem b32HasInvalid_cons (c : Byte) (s : List Byte) :
    b32HasInvalid (c :: s) = (decide (b32Class c = .invalid) || b32HasInvalid s) :=
  List.any_cons

theorem b32Number_append (vs ws : List Nat) :
    b32Number (vs ++ ws) = b32Number vs * 32 ^ ws.length + b32Number ws := by
  rw [b32Number, List.foldl_append, b32Number_foldl]
  rfl

theorem b32Closed_getElem? (vs : List Nat) {j : Nat} (h : j < 5 * vs.length / 8) :
    (b32Closed vs)[j]? = some (BitVec.ofNat 8 (b32Number vs / 2 ^ (5 * vs.length - 8 * (j + 1)) % 256)) := by
  simp [b32Closed, h]

/-! ## Case and padding (40_base32_decoder.md R83) -/

/-- The loop sees of a character its class alone. -/
theorem b32Loop_congr {s t : List Byte} (h : List.Forall₂ (fun c d => b32Class d = b32Class c) s t) :
    ∀ acc nbits out, b32Loop acc nbits out t = b32Loop acc nbits out s := by
  induction h with
  | nil => intros; rfl
  | cons hclass _ ih => intros; simp only [b32Loop, hclass, ih]

theorem b32Decode_of_forall₂_otherCase {s t : List Byte}
    (h : List.Forall₂ (fun c d => d = c ∨ d = otherCase c) s t) : b32Decode t = b32Decode s := by
  refine b32Loop_congr (h.imp fun c d hd => ?_) 0 0 []
  rcases hd with rfl | rfl
  · rfl
  · exact b32Class_otherCase c

/-- `=` is valid and has no value. -/
theorem b32Decode_insert_pad (s u : List Byte) : b32Decode (s ++ 0x3D :: u) = b32Decode (s ++ u) := by
  have hpad : b32Class 0x3D#8 = .pad := rfl
  simp [b32Decode_eq, b32Values_cons, hpad]

/-- Settles O13, from the class of the other case and the class of `=`. -/
theorem base32DecodeIgnoresCaseAndPadding : Obligations.Base32DecodeIgnoresCaseAndPadding :=
  ⟨fun _ _ => b32Decode_of_forall₂_otherCase, b32Decode_insert_pad⟩

/-! ## Prefixes (40_base32_decoder.md R83) -/

/-- The values appended after `vs` are below the weight of its last bit, so the bytes that `vs` completes stay. -/
theorem b32Closed_prefix_append (vs : List Nat) {ws : List Nat} (hws : ∀ w ∈ ws, w < 32) :
    b32Closed vs <+: b32Closed (vs ++ ws) := by
  rw [List.prefix_iff_getElem?]
  intro j hj
  have hquot : b32Number (vs ++ ws) / 32 ^ ws.length = b32Number vs := by
    rw [b32Number_append, Nat.add_comm, Nat.add_mul_div_right _ _ (by positivity),
      Nat.div_eq_of_lt (b32Number_lt ws hws), Nat.zero_add]
  rw [b32Closed_length] at hj
  have hshift : 2 ^ (5 * (vs ++ ws).length - 8 * (j + 1)) = 32 ^ ws.length * 2 ^ (5 * vs.length - 8 * (j + 1)) := by
    rw [show 32 = 2 ^ 5 by rfl, ← Nat.pow_mul, ← Nat.pow_add, List.length_append]
    congr 1
    omega
  rw [← List.getElem?_eq_getElem, b32Closed_getElem? vs hj,
    b32Closed_getElem? (vs ++ ws) (by rw [List.length_append]; omega), hshift, ← Nat.div_div_eq_div_mul, hquot]

/-- Settles O14: the front of a valid list is valid, and its closed form starts the longer one. -/
theorem base32DecodePrefixMonotone : Obligations.Base32DecodePrefixMonotone := by
  intro s u o2 h
  obtain ⟨hvalid, rfl⟩ := b32Decode_ok _ _ h
  rw [b32HasInvalid_append, Bool.or_eq_false_iff] at hvalid
  obtain ⟨hs, -⟩ := hvalid
  refine ⟨_, b32Decode_of_valid s hs, ?_⟩
  rw [b32Values_append]
  exact b32Closed_prefix_append _ (b32Values_lt u)

/-! ## The round trip (40_base32_decoder.md R83, 95_test_vectors.md section 2.3) -/

/-- The closed form is the big-endian list of the number without its left-over bits. -/
theorem b32Closed_eq_be (vs : List Nat) :
    b32Closed vs = be (5 * vs.length / 8) (b32Number vs / 2 ^ (5 * vs.length % 8)) := by
  refine List.map_congr_left fun j hj => ?_
  have hj := List.mem_range.mp hj
  have hexp : 5 * vs.length - 8 * (j + 1) = 5 * vs.length % 8 + 8 * (5 * vs.length / 8 - 1 - j) := by omega
  rw [Nat.shiftRight_eq_div_pow, Nat.div_div_eq_div_mul, ← Nat.pow_add, ← hexp]
  exact BitVec.eq_of_toNat_eq (by simp)

/-- The characters of values below 32 decode to these values. -/
theorem b32Decode_map_b32Char {gs : List Nat} (h : ∀ g ∈ gs, g < 32) :
    b32Decode (gs.map b32Char) = .ok (b32Closed gs) := by
  obtain ⟨hvalid, hvalues⟩ : b32HasInvalid (gs.map b32Char) = false ∧ b32Values (gs.map b32Char) = gs := by
    induction gs with
    | nil => exact ⟨rfl, rfl⟩
    | cons g gs ih =>
      obtain ⟨hg, hgs⟩ := List.forall_mem_cons.mp h
      obtain ⟨hinvalid, hvalues⟩ := ih hgs
      simp [b32Values_cons, b32Class_b32Char g hg, hinvalid, hvalues, Nat.mod_eq_of_lt hg]
  rw [b32Decode_of_valid _ hvalid, hvalues]

/-- The zero bits that fill up the last group are fewer than a byte, so the closed form drops them. -/
theorem b32Closed_groupsOf (b : List Byte) {p k : Nat} (hp : p < 5) (hk : 8 * b.length + p = 5 * k) :
    b32Closed ((groupsOf 5 k (b.flatMap byteBits ++ List.replicate p false)).map bitsValue) = b := by
  have hbits : (b.flatMap byteBits ++ List.replicate p false).length = 5 * k := by
    rw [List.length_append, flatMap_byteBits_length, List.length_replicate, hk]
  have hnumber : bitsValue (b.flatMap byteBits ++ List.replicate p false) = fromBE b * 2 ^ p := by
    rw [bitsValue_append, bitsValue_flatMap, bitsValue_zeros, List.length_replicate, Nat.add_zero]
  rw [b32Closed_eq_be, b32Number_groupsOf k _ hbits, hnumber, List.length_map, groupsOf_length, ← hk,
    show (8 * b.length + p) / 8 = b.length by omega, show (8 * b.length + p) % 8 = p by omega,
    Nat.mul_div_cancel _ (Nat.two_pow_pos p), be_fromBE]

theorem b32Decode_b32Chars (b : List Byte) : b32Decode (b32Chars b) = .ok b := by
  have hchars (k : Nat) (bits : List Bool) : b32Decode ((groupsOf 5 k bits).map fun g => b32Char (bitsValue g)) =
      .ok (b32Closed ((groupsOf 5 k bits).map bitsValue)) := by
    rw [← b32Decode_map_b32Char (List.forall_mem_map.mpr (bitsValue_group_lt k bits)), List.map_map]
    rfl
  rw [b32Chars, hchars, b32Closed_groupsOf b (by omega)]
  rw [List.length_append, flatMap_byteBits_length, List.length_replicate]
  omega

theorem b32Decode_append_pads (s : List Byte) (n : Nat) : b32Decode (s ++ List.replicate n 0x3D) = b32Decode s := by
  induction n with
  | zero => rw [List.replicate_zero, List.append_nil]
  | succ n ih => rw [List.replicate_succ, b32Decode_insert_pad, ih]

theorem b32Decode_b32Encode (b : List Byte) (padded : Bool) : b32Decode (b32Encode b padded) = .ok b := by
  cases padded with
  | true => exact (b32Decode_append_pads _ _).trans (b32Decode_b32Chars b)
  | false => exact b32Decode_b32Chars b

theorem b32Decode_map_otherCase (s : List Byte) : b32Decode (s.map otherCase) = b32Decode s := by
  refine b32Decode_of_forall₂_otherCase (List.forall₂_map_right_iff.mpr ?_)
  exact List.forall₂_same.mpr fun _ _ => .inr rfl

/-- Settles O15: the padded encoding has `=` appended, the lower-case one every letter exchanged. -/
theorem base32RoundTrip : Obligations.Base32RoundTrip := fun b padded =>
  ⟨b32Decode_b32Encode b padded, (b32Decode_map_otherCase _).trans (b32Decode_b32Encode b padded)⟩

/-! ## The width of the accumulator (40_base32_decoder.md R83)

Between characters the counter is below 8 and the accumulator below `2^nbits`. Five more bits make at most 12, so no
operation of the narrow loop loses a bit. -/

/-- Seven bits and five more fit 12. -/
theorem shiftIn_toNat {acc : BitVec 12} (v : BitVec 5) (h : acc.toNat < 2 ^ 7) :
    ((acc <<< 5) ||| v.setWidth 12).toNat = (acc.toNat <<< 5) ||| v.toNat := by
  have hv := v.isLt
  rw [BitVec.toNat_or, BitVec.toNat_shiftLeft, BitVec.toNat_setWidth, Nat.mod_eq_of_lt (a := v.toNat) (by omega),
    Nat.mod_eq_of_lt (by rw [Nat.shiftLeft_eq]; omega)]

theorem addFive_toNat {nbits : BitVec 4} (h : nbits.toNat < 8) : (nbits + 5).toNat = nbits.toNat + 5 := by
  bv_omega

theorem maskLow_toNat (acc : BitVec 12) {k : Nat} (h : k < 12) :
    (acc &&& ((1 : BitVec 12) <<< k - 1)).toNat = acc.toNat &&& (1 <<< k - 1) := by
  have hpos := Nat.two_pow_pos k
  have hlt : (2 : Nat) ^ k < 2 ^ 12 := Nat.pow_lt_pow_right (by omega) h
  have hone : ((1 : BitVec 12) <<< k).toNat = 2 ^ k := by
    rw [BitVec.toNat_shiftLeft, show (1 : BitVec 12).toNat = 1 from rfl, Nat.one_shiftLeft, Nat.mod_eq_of_lt hlt]
  rw [BitVec.toNat_and, BitVec.toNat_sub_of_le (by rw [BitVec.le_def, hone]; exact hpos), hone, Nat.one_shiftLeft]
  rfl

theorem topByte_eq (acc : BitVec 12) (k : Nat) :
    (acc >>> k).setWidth 8 = BitVec.ofNat 8 ((acc.toNat >>> k) &&& 0xFF) := by
  refine BitVec.eq_of_toNat_eq ?_
  rw [BitVec.toNat_setWidth, BitVec.toNat_ushiftRight, BitVec.toNat_ofNat, show (0xFF : Nat) = 2 ^ 8 - 1 by rfl,
    Nat.and_two_pow_sub_one_eq_mod, Nat.mod_mod]

/-- The narrow loop keeps in step with the loop on natural numbers. -/
theorem b32Loop12_eq (s : List Byte) : ∀ (acc : BitVec 12) (nbits : BitVec 4) (out : List Byte),
    nbits.toNat < 8 → acc.toNat < 2 ^ nbits.toNat →
    b32Loop12 acc nbits out s = b32Loop acc.toNat nbits.toNat out s := by
  induction s with
  | nil => intros; rfl
  | cons c cs ih =>
    intro acc nbits out hn ha
    rw [b32Loop12, b32Loop]
    cases b32Class c with
    | pad => exact ih acc nbits out hn ha
    | invalid => rfl
    | val v =>
      have hacc : acc.toNat < 2 ^ 7 := ha.trans_le (Nat.pow_le_pow_right (by omega) (by omega))
      have hnbits := addFive_toNat hn
      simp only [hnbits, ← shiftIn_toNat v hacc]
      split
      case isTrue h8 =>
        have hrest : (nbits + 5 - 8).toNat = nbits.toNat + 5 - 8 := by bv_omega
        have hmask := maskLow_toNat ((acc <<< 5) ||| v.setWidth 12) (k := nbits.toNat + 5 - 8) (by omega)
        rw [topByte_eq, ih _ _ _ (by omega) ?_, hmask, hrest]
        rw [hmask, hrest, and_mask_eq]
        exact Nat.mod_lt _ (Nat.two_pow_pos _)
      case isFalse h8 =>
        rw [ih _ _ _ (by omega) ?_, hnbits]
        rw [hnbits, shiftIn_toNat v hacc, shiftLeft_or_eq, Nat.pow_add]
        have hv := v.isLt
        omega

/-- Settles O16: the two loops start in step. -/
theorem twelveBitAccumulatorSuffices : Obligations.TwelveBitAccumulatorSuffices := fun s =>
  b32Loop12_eq s 0 0 [] (by decide) (by decide)

end Sys2Proof.Machine

/-! PROOFS. Family 41_counter_encoder.md: TCNT (O17), CTRENC (O18) and the three counter modes (O19). -/

namespace Sys2Proof.Machine

open Sys2Proof

/-! ## TCNT (41_counter_encoder.md R90, R91) -/

theorem tcnt_of_timestamp_none {s : State} (ht : s.timestamp = none) :
    tcnt s = failCommand .tcnt .operandNotReady s := by
  simp only [tcnt, ht]

theorem tcnt_of_timestep_zero {s : State} {t : Word64} (ht : s.timestamp = some t) (h0 : s.timestep = 0) :
    tcnt s = failCommand .tcnt .invalidTimeStep s := by
  simp only [tcnt, ht, timeCounter_zero t _ h0]

theorem tcnt_of_timestep_pos {s : State} {t : Word64} (ht : s.timestamp = some t) (h0 : s.timestep ≠ 0) :
    tcnt s = { s with counter := some (BitVec.ofNat 64 (t.toNat / s.timestep.toNat)), err := 0 } := by
  simp only [tcnt, ht, timeCounter_pos t _ h0]
  rfl

/-- Settles O17: the three outcomes of TCNT; the quotient fits COUNTER, so its 64 bits lose nothing. -/
theorem tcntDividesTimestampByTimestep : Obligations.TcntDividesTimestampByTimestep := by
  refine ⟨rfl, fun s => ⟨fun ht => ?_, fun t ht h0 => ?_, fun t ht h0 => ⟨_, quotient_toNat t s.timestep, ?_⟩⟩⟩
  · rw [exec_tcnt, tcnt_of_timestamp_none ht, failCommand_tcnt]
    rfl
  · rw [exec_tcnt, tcnt_of_timestep_zero ht h0, failCommand_tcnt]
    rfl
  · rw [exec_tcnt, tcnt_of_timestep_pos ht h0]

/-! ## The counter block (30_encoding.md R68, 41_counter_encoder.md R92) -/

/-- A value that fits `n` bytes has zero bytes above them. -/
theorem be_add_of_lt (k : Nat) {n v : Nat} (h : v < 2 ^ (8 * n)) : be (k + n) v = List.replicate k 0 ++ be n v := by
  induction k with
  | zero => simp
  | succ k ih =>
    have hfit : v < 2 ^ (8 * (k + n)) := h.trans_le (Nat.pow_le_pow_right (by decide) (by omega))
    rw [Nat.add_right_comm, be_succ, ih, Nat.shiftRight_eq_div_pow, Nat.div_eq_of_lt hfit]
    rfl

theorem be_four_eq_bytes (c : Word64) :
    be 4 c.toNat = [c.extractLsb' 24 8, c.extractLsb' 16 8, c.extractLsb' 8 8, c.extractLsb' 0 8] := rfl

theorem be_eight_eq_bytes (c : Word64) :
    be 8 c.toNat = [c.extractLsb' 56 8, c.extractLsb' 48 8, c.extractLsb' 40 8, c.extractLsb' 32 8,
      c.extractLsb' 24 8, c.extractLsb' 16 8, c.extractLsb' 8 8, c.extractLsb' 0 8] := rfl

theorem counterEncode_trunc32 (c : Word64) : counterEncode .trunc32 c = .ok ([0, 0, 0, 0] ++ be 4 c.toNat) := by
  rw [counterEncode, be_mod 4 c.toNat]

/-- Below 2^32 every mode gives four zero bytes and the four low bytes. -/
theorem counterEncode_of_lt (m : CtrMode) {c : Word64} (h : c.toNat < 2 ^ 32) :
    counterEncode m c = .ok ([0, 0, 0, 0] ++ be 4 c.toNat) := by
  cases m with
  | fault32 => rw [counterEncode, if_neg (Nat.not_le_of_lt h)]
  | wide64 => exact congrArg Except.ok (be_add_of_lt 4 (n := 4) h)
  | trunc32 => exact counterEncode_trunc32 c

/-- What is encoded without truncation is the whole counter: `FAULT32` encodes only what fits four bytes. -/
theorem counterEncode_ok_eq_be {m : CtrMode} {c : Word64} {block : List Byte} (hm : m ≠ .trunc32)
    (h : counterEncode m c = .ok block) : block = be 8 c.toNat := by
  cases m with
  | fault32 =>
    by_cases hlt : c.toNat < 2 ^ 32
    · rw [counterEncode_of_lt _ hlt] at h
      exact (Except.ok.inj h).symm.trans (be_add_of_lt 4 (n := 4) hlt).symm
    · rw [counterEncode_overflow c (Nat.le_of_not_lt hlt)] at h
      cases h
  | wide64 => exact (Except.ok.inj h).symm
  | trunc32 => exact absurd rfl hm

/-- Settles O19: `TRUNC32` reads the four low bytes only, and a block of the other modes spells its counter. -/
theorem counterModesAgreeBelowTwoToThe32 : Obligations.CounterModesAgreeBelowTwoToThe32 := by
  refine ⟨fun m m' c hlt => ⟨?_, _, counterEncode_of_lt m hlt⟩, fun c c' hmod => ⟨?_, _, counterEncode_trunc32 c⟩,
    fun m c c' block hm hc hc' => ?_⟩
  · rw [counterEncode_of_lt m hlt, counterEncode_of_lt m' hlt]
  · rw [counterEncode_trunc32, counterEncode_trunc32, hmod, be_mod 4 c.toNat]
  · have hblock : be 8 c.toNat = be 8 c'.toNat :=
      (counterEncode_ok_eq_be hm hc).symm.trans (counterEncode_ok_eq_be hm hc')
    have hvalue := congrArg fromBE hblock
    rw [fromBE_be 8 _ c.isLt, fromBE_be 8 _ c'.isLt] at hvalue
    exact BitVec.eq_of_toNat_eq hvalue

/-! ## CTRENC (41_counter_encoder.md R93) -/

theorem ctrenc_of_counter_none (cfg : Config) {s : State} (hc : s.counter = none) :
    ctrenc cfg s = failCommand .ctrenc .operandNotReady s := by
  simp only [ctrenc, hc]

theorem ctrenc_of_overflow {cfg : Config} {s : State} {c : Word64} (hc : s.counter = some c)
    (hm : cfg.ctrMode = .fault32) (hle : 2 ^ 32 ≤ c.toNat) : ctrenc cfg s = failCommand .ctrenc .counterOverflow s := by
  simp only [ctrenc, hc, hm, counterEncode_overflow c hle]

theorem ctrenc_of_block {cfg : Config} {s : State} {c : Word64} {block : List Byte} (hc : s.counter = some c)
    (hblock : counterEncode cfg.ctrMode c = .ok block) : ctrenc cfg s = { s with msg := block, err := 0 } := by
  simp only [ctrenc, hc, hblock]
  rfl

/-- Settles O18: the two failures of CTRENC, and the block each mode gives otherwise, byte by byte. -/
theorem ctrencEncodesCounterBigEndian : Obligations.CtrencEncodesCounterBigEndian := by
  refine ⟨rfl, exec_ctrenc, rfl, fun cfg s => ⟨fun hc => ?_, fun c hc hm hle => ?_, fun c hc hlow => ?_,
    fun c hc hm => ?_⟩⟩
  · rw [ctrenc_of_counter_none cfg hc, failCommand_ctrenc]
    rfl
  · rw [ctrenc_of_overflow hc hm hle, failCommand_ctrenc]
    rfl
  · have hblock : counterEncode cfg.ctrMode c = .ok ([0, 0, 0, 0] ++ be 4 c.toNat) := by
      obtain ⟨-, hlt⟩ | hm := hlow
      · exact counterEncode_of_lt _ hlt
      · rw [hm, counterEncode_trunc32]
    rw [ctrenc_of_block hc hblock, be_four_eq_bytes]
    rfl
  · have hblock : counterEncode cfg.ctrMode c = .ok (be 8 c.toNat) := by rw [hm, counterEncode]
    rw [ctrenc_of_block hc hblock, be_eight_eq_bytes]

end Sys2Proof.Machine

/-! PROOFS. Family 42_hmac_sha1.md: SHA-1's functions and constants (O21), its contract on every message (O22, O57) and
check values (O23); HMAC-SHA1's construction (O24), its equivalent keys (O25) and the command HMAC (O26). -/

namespace Sys2Proof.Machine

open Sys2Proof

/-! ## Round functions and constants (42_hmac_sha1.md R103) -/

/-- Settles O21: each range selects its branch of the round function and of the round constant. -/
theorem sha1RoundFunctionsAndConstants : Obligations.Sha1RoundFunctionsAndConstants := by
  refine ⟨rfl, fun t b c d => ⟨fun h => ?_, fun _ h => ?_, fun _ h => ?_, fun _ _ => ?_⟩⟩
  · simp only [sha1F, sha1K, if_pos h, and_self]
  · simp only [sha1F, sha1K, if_neg (show ¬ t ≤ 19 by omega), if_pos h, and_self]
  · simp only [sha1F, sha1K, if_neg (show ¬ t ≤ 19 by omega), if_neg (show ¬ t ≤ 39 by omega), if_pos h, and_self]
  · simp only [sha1F, sha1K, if_neg (show ¬ t ≤ 19 by omega), if_neg (show ¬ t ≤ 39 by omega),
      if_neg (show ¬ t ≤ 59 by omega), and_self]

/-! ## Padding (42_hmac_sha1.md R102) -/

theorem padZeros_fills_block (len : Nat) : (len + 1 + padZeros len) % 64 = 56 := by
  rw [padZeros]; omega

theorem padZeros_least {len z : Nat} (h : (len + 1 + z) % 64 = 56) : padZeros len ≤ z := by
  rw [padZeros]; omega

/-! ## One block (42_hmac_sha1.md R104) -/

/-- The schedule word `W[t]` of a block; zero from `t = 80` on, which no round reads. -/
def sha1Word (block : List Byte) (t : Nat) : Word32 := (sha1Schedule block).getD t 0

/-- The working words before round `t` of a block processed from chaining value `h`. -/
def sha1Working (h : Words5) (block : List Byte) (t : Nat) : Words5 :=
  sha1Rounds 0 ((sha1Schedule block).take t) h

theorem sha1Schedule_getElem? (block : List Byte) (t : Nat) (ht : t < 80) :
    (sha1Schedule block)[t]? = some (sha1Word block t) := by
  have hlen : t < (sha1Schedule block).length := by rwa [sha1Schedule_length]
  rw [sha1Word, List.getD_eq_getElem _ _ hlen, List.getElem?_eq_getElem hlen]

theorem sha1Word_first (block : List Byte) (t : Nat) (ht : t < 16) :
    sha1Word block t = BitVec.ofNat 32 (fromBE ((block.drop (4 * t)).take 4)) :=
  Option.some.inj ((sha1Schedule_getElem? block t (by omega)).symm.trans (sha1Schedule_first block t ht))

theorem sha1Working_succ (h : Words5) (block : List Byte) (t : Nat) (ht : t < 80) :
    sha1Working h block (t + 1) = sha1Round t (sha1Word block t) (sha1Working h block t) :=
  sha1Rounds_take_succ _ h t _ (sha1Schedule_getElem? block t ht)

theorem sha1Working_eighty (h : Words5) (block : List Byte) :
    sha1Working h block 80 = sha1Rounds 0 (sha1Schedule block) h := by
  rw [sha1Working, List.take_of_length_le (sha1Schedule_length block).le]

theorem sha1Block_meets_step (h : Words5) (block : List Byte) : Sha1BlockStep h block (sha1Block h block) := by
  refine ⟨sha1Word block, sha1Working h block, sha1Word_first block,
    sha1Schedule_later block _ (sha1Schedule_getElem? block), rfl, sha1Working_succ h block, ?_⟩
  rw [sha1Working_eighty, sha1Block]

/-! ## The chain of blocks (42_hmac_sha1.md R102 to R105) -/

/-- The 64-byte blocks of the padded message, in order. -/
def sha1Blocks (m : List Byte) : List (List Byte) := groupsOf 64 ((sha1Pad m).length / 64) (sha1Pad m)

theorem sha1Blocks_length (m : List Byte) : (sha1Blocks m).length = (sha1Pad m).length / 64 := groupsOf_length _ _ _

theorem sha1Chain_eq (m : List Byte) : sha1Chain m = (sha1Blocks m).foldl sha1Block sha1Init := rfl

/-- The chaining value after the first `k` blocks of the padded message. -/
def sha1ChainAfter (m : List Byte) (k : Nat) : Words5 := ((sha1Blocks m).take k).foldl sha1Block sha1Init

theorem sha1ChainAfter_succ (m : List Byte) (k : Nat) (hk : k < (sha1Pad m).length / 64) :
    sha1ChainAfter m (k + 1) = sha1Block (sha1ChainAfter m k) (((sha1Pad m).drop (64 * k)).take 64) :=
  sha1Chain_take_succ _ _ _ _ (groupsOf_getElem? _ _ _ _ hk)

theorem sha1ChainAfter_last (m : List Byte) : sha1ChainAfter m ((sha1Pad m).length / 64) = sha1Chain m := by
  rw [sha1ChainAfter, List.take_of_length_le (sha1Blocks_length m).le, sha1Chain_eq]

/-- The contract asks for no bound on the message: the length field of the padding is `be 8`, which wraps by itself. -/
theorem sha1_meets_contract (m : List Byte) : Sha1Contract m (sha1 m) := by
  refine ⟨padZeros m.length, (sha1Pad m).length / 64, sha1Pad m, sha1ChainAfter m, padZeros_fills_block _,
    fun _ => padZeros_least, rfl, sha1Pad_length_blocks m, rfl, fun k hk => ?_, ?_⟩
  · rw [sha1ChainAfter_succ m k hk]
    exact sha1Block_meets_step _ _
  · rw [sha1ChainAfter_last, sha1, Words5.bytes]

/-- Settles O22: the domain of R101 is part of what every message meets. -/
theorem sha1MeetsItsContract : Obligations.Sha1MeetsItsContract := fun m _ =>
  ⟨sha1_meets_contract m, sha1_length m⟩

/-- Settles O57: beyond the domain of R101 the contract still holds, and `be 8` keeps the bit length modulo 2^64. -/
theorem sha1BeyondItsDomainWrapsTheLength : Obligations.Sha1BeyondItsDomainWrapsTheLength := fun m _ =>
  ⟨sha1_meets_contract m, sha1_length m, be_mod 8 (8 * m.length)⟩

/-- Settles O23, by evaluation of the core on the two one-block messages. -/
theorem sha1CheckValues : Obligations.Sha1CheckValues := by
  constructor <;> decide +kernel

/-! ## The key of HMAC (42_hmac_sha1.md R100) -/

/-- `k'` of 42_hmac_sha1.md R100: a key of more than 64 bytes is hashed. -/
def hmacShortKey (key : List Byte) : List Byte := if 64 < key.length then sha1 key else key

theorem hmacShortKey_of_long {key : List Byte} (h : 64 < key.length) : hmacShortKey key = sha1 key := if_pos h

theorem hmacShortKey_of_short {key : List Byte} (h : key.length ≤ 64) : hmacShortKey key = key :=
  if_neg (Nat.not_lt_of_le h)

theorem hmacShortKey_length_le (key : List Byte) : (hmacShortKey key).length ≤ 64 := by
  by_cases h : 64 < key.length
  · rw [hmacShortKey_of_long h, sha1_length]; decide
  · rw [hmacShortKey_of_short (Nat.le_of_not_lt h)]; omega

theorem hmacKey_eq (key : List Byte) :
    hmacKey key = hmacShortKey key ++ List.replicate (64 - (hmacShortKey key).length) 0x00 := rfl

theorem hmacKey_length (key : List Byte) : (hmacKey key).length = 64 := by
  have := hmacShortKey_length_le key
  rw [hmacKey_eq, List.length_append, List.length_replicate]; omega

theorem hmacKey_getElem?_key {key : List Byte} (i : Nat) (h : i < (hmacShortKey key).length) :
    (hmacKey key)[i]? = some (hmacShortKey key)[i] := by
  rw [hmacKey_eq, List.getElem?_append_left h, List.getElem?_eq_getElem h]

theorem hmacKey_getElem?_zero {key : List Byte} (i : Nat) (h : (hmacShortKey key).length ≤ i) (h64 : i < 64) :
    (hmacKey key)[i]? = some 0x00 := by
  rw [hmacKey_eq, List.getElem?_append_right h, List.getElem?_replicate, if_pos (by omega)]

/-! ## HMAC-SHA1 (42_hmac_sha1.md R100) -/

theorem hmacSha1_eq (key msg : List Byte) :
    hmacSha1 key msg = sha1 ((hmacKey key).map (· ^^^ 0x5C) ++ sha1 ((hmacKey key).map (· ^^^ 0x36) ++ msg)) := rfl

/-- The digest reads the key through `k0` only. -/
theorem hmacSha1_congr {key key' : List Byte} (h : hmacKey key = hmacKey key') (msg : List Byte) :
    hmacSha1 key msg = hmacSha1 key' msg := by
  rw [hmacSha1_eq, hmacSha1_eq, h]

/-- Settles O24, with `k0 = hmacKey key` and its two masks. -/
theorem hmacConstruction : Obligations.HmacConstruction := fun key msg => by
  refine ⟨hmacShortKey key, hmacKey key, (hmacKey key).map (· ^^^ 0x36), (hmacKey key).map (· ^^^ 0x5C),
    hmacShortKey_of_long, hmacShortKey_of_short, hmacKey_length key, hmacKey_getElem?_key, hmacKey_getElem?_zero,
    ?_, ?_, fun i x hx => ⟨?_, ?_⟩, hmacSha1_eq key msg, hmacSha1_length key msg⟩
  · rw [List.length_map, hmacKey_length]
  · rw [List.length_map, hmacKey_length]
  · rw [List.getElem?_map, hx, Option.map_some]
  · rw [List.getElem?_map, hx, Option.map_some]

/-! ## Keys with one digest (42_hmac_sha1.md R100) -/

/-- Zero bytes written to the key are zero bytes the fill need not add. -/
theorem hmacKey_append_zeros (key : List Byte) (z : Nat) (h : key.length + z ≤ 64) :
    hmacKey (key ++ List.replicate z 0x00) = hmacKey key := by
  have hlen : (key ++ List.replicate z (0x00 : Byte)).length = key.length + z := by simp
  rw [hmacKey_eq, hmacKey_eq key, hmacShortKey_of_short (hlen.le.trans h), hmacShortKey_of_short (by omega), hlen,
    List.append_assoc, List.replicate_append_replicate, show z + (64 - (key.length + z)) = 64 - key.length by omega]

/-- A hash is short, so it is its own `k'`. -/
theorem hmacKey_sha1 {key : List Byte} (h : 64 < key.length) : hmacKey (sha1 key) = hmacKey key := by
  have hshort : (sha1 key).length ≤ 64 := by rw [sha1_length]; decide
  rw [hmacKey_eq, hmacKey_eq key, hmacShortKey_of_short hshort, hmacShortKey_of_long h]

/-- Settles O25: in both clauses the two keys have one `k0`. -/
theorem hmacKeyEquivalences : Obligations.HmacKeyEquivalences :=
  ⟨fun key msg z h => hmacSha1_congr (hmacKey_append_zeros key z h) msg,
    fun _ msg h => hmacSha1_congr (hmacKey_sha1 h).symm msg⟩

/-! ## The command HMAC (42_hmac_sha1.md R106) -/

/-- Settles O26, from the rule of the command and the length of the digest. -/
theorem hmacHashesMsgUnderKey : Obligations.HmacHashesMsgUnderKey := by
  refine ⟨rfl, fun s => ⟨?_, hmacSha1_length s.key s.msg⟩⟩
  rw [exec_hmac, hmac_eq]

end Sys2Proof.Machine

/-! PROOFS. Family 43_dynamic_truncator.md: what Truncate reads (O28) and the command TRUNC (O27). -/

namespace Sys2Proof.Machine

open Sys2Proof

/-! ## The window of the truncator (43_dynamic_truncator.md R120) -/

theorem truncOffset_eq_mod {d : List Byte} (h : d.length = 20) {last : Byte} (hlast : d[19]? = some last) :
    truncOffset d h = last.toNat % 16 := by
  obtain ⟨_, rfl⟩ := List.getElem?_eq_some_iff.mp hlast
  rw [truncOffset, BitVec.toNat_and, show (0x0F : Byte).toNat = 2 ^ 4 - 1 from rfl, Nat.and_two_pow_sub_one_eq_mod]

/-- The four bytes `a`, `b`, `c`, `f` stand in `d` from index `o` on. -/
structure WindowAt (d : List Byte) (o : Nat) (a b c f : Byte) : Prop where
  first  : d[o]? = some a
  second : d[o + 1]? = some b
  third  : d[o + 2]? = some c
  fourth : d[o + 3]? = some f

theorem WindowAt.take_drop {d : List Byte} {o : Nat} {a b c f : Byte} (h : WindowAt d o a b c f) :
    (d.drop o).take 4 = [a, b, c, f] := by
  rw [List.drop_eq_getElem?_toList_append, List.drop_eq_getElem?_toList_append (i := o + 1),
    List.drop_eq_getElem?_toList_append (i := o + 2), List.drop_eq_getElem?_toList_append (i := o + 3), h.first,
    h.second, h.third, h.fourth]
  rfl

theorem fromBE_four (a b c f : Byte) :
    fromBE [a, b, c, f] = a.toNat * 2 ^ 24 + b.toNat * 2 ^ 16 + c.toNat * 2 ^ 8 + f.toNat := by
  simp only [fromBE_cons, List.length_cons, List.length_nil, show fromBE [] = 0 from rfl]
  omega

theorem fromBE_four_mod (a b c f : Byte) :
    fromBE [a, b, c, f] % 2 ^ 31 = a.toNat % 128 * 2 ^ 24 + b.toNat * 2 ^ 16 + c.toNat * 2 ^ 8 + f.toNat := by
  rw [fromBE_four]
  have := b.isLt
  have := c.isLt
  have := f.isLt
  omega

/-- The window of a digest, and `Truncate` as its number with bit 31 cleared. -/
theorem truncate_window (d : List Byte) (h : d.length = 20) :
    ∃ a b c f : Byte, WindowAt d (truncOffset d h) a b c f ∧ (truncate d h).toNat = fromBE [a, b, c, f] % 2 ^ 31 := by
  obtain ⟨ho, hvalue⟩ := truncate_toNat d h
  exact ⟨_, _, _, _, ⟨List.getElem?_eq_getElem _, List.getElem?_eq_getElem _, List.getElem?_eq_getElem _,
    List.getElem?_eq_getElem _⟩, hvalue.trans (fromBE_four_mod ..).symm⟩

theorem truncate_eq_fromBE (d : List Byte) (h : d.length = 20) :
    (truncate d h).toNat = fromBE ((d.drop (truncOffset d h)).take 4) % 2 ^ 31 := by
  obtain ⟨a, b, c, f, hwindow, hvalue⟩ := truncate_window d h
  rw [hvalue, hwindow.take_drop]

/-! ## What the value depends on (43_dynamic_truncator.md R120) -/

/-- The number below 2^31 determines the low seven bits of the first byte and the other three bytes. -/
theorem fromBE_four_mod_inj (a b c f a' b' c' f' : Byte) :
    fromBE [a, b, c, f] % 2 ^ 31 = fromBE [a', b', c', f'] % 2 ^ 31 ↔
      a.toNat % 128 = a'.toNat % 128 ∧ b = b' ∧ c = c' ∧ f = f' := by
  rw [fromBE_four_mod, fromBE_four_mod, ← BitVec.toNat_inj, ← BitVec.toNat_inj, ← BitVec.toNat_inj]
  have := b.isLt
  have := c.isLt
  have := f.isLt
  have := b'.isLt
  have := c'.isLt
  have := f'.isLt
  omega

theorem WindowAt.first_agree_iff {d d' : List Byte} {o : Nat} {a b c f a' b' c' f' : Byte}
    (h : WindowAt d o a b c f) (h' : WindowAt d' o a' b' c' f') :
    (∀ x x', d[o]? = some x → d'[o]? = some x' → x.toNat % 128 = x'.toNat % 128) ↔ a.toNat % 128 = a'.toNat % 128 := by
  rw [h.first, h'.first]
  exact ⟨fun hfirst => hfirst a a' rfl rfl, by rintro hfirst _ _ ⟨⟩ ⟨⟩; exact hfirst⟩

theorem WindowAt.rest_agree_iff {d d' : List Byte} {o : Nat} {a b c f a' b' c' f' : Byte}
    (h : WindowAt d o a b c f) (h' : WindowAt d' o a' b' c' f') :
    (∀ k, 1 ≤ k → k ≤ 3 → d[o + k]? = d'[o + k]?) ↔ b = b' ∧ c = c' ∧ f = f' := by
  have hthree : (∀ k, 1 ≤ k → k ≤ 3 → d[o + k]? = d'[o + k]?) ↔
      d[o + 1]? = d'[o + 1]? ∧ d[o + 2]? = d'[o + 2]? ∧ d[o + 3]? = d'[o + 3]? := by
    refine ⟨fun hall => ⟨hall 1 (by decide) (by decide), hall 2 (by decide) (by decide),
      hall 3 (by decide) (by decide)⟩, fun ⟨h1, h2, h3⟩ k hk1 hk3 => ?_⟩
    obtain rfl | rfl | rfl : k = 1 ∨ k = 2 ∨ k = 3 := by omega
    · exact h1
    · exact h2
    · exact h3
  rw [hthree, h.second, h'.second, h.third, h'.third, h.fourth, h'.fourth, Option.some_inj, Option.some_inj,
    Option.some_inj]

/-- Settles O28: the value is the window's number modulo 2^31, which determines exactly the bits named. -/
theorem truncateReadsTheMaskedWindowOnly : Obligations.TruncateReadsTheMaskedWindowOnly := by
  refine ⟨fun d h last hlast => ⟨truncOffset_eq_mod h hlast, ?_, truncate_eq_fromBE d h, truncate_lt d h⟩,
    fun d d' h h' hoffset => ?_⟩
  · have := truncOffset_le d h
    omega
  · obtain ⟨a, b, c, f, hwindow, hvalue⟩ := truncate_window d h
    obtain ⟨a', b', c', f', hwindow', hvalue'⟩ := truncate_window d' h'
    rw [← hoffset] at hwindow'
    rw [← BitVec.toNat_inj, hvalue, hvalue', fromBE_four_mod_inj, hwindow.first_agree_iff hwindow',
      hwindow.rest_agree_iff hwindow']

/-! ## The command TRUNC (43_dynamic_truncator.md R121) -/

/-- Settles O27: each clause is one of the two cases of TRUNC, the value by `truncate_eq_fromBE`. -/
theorem truncExtractsTheMaskedWindow : Obligations.TruncExtractsTheMaskedWindow := by
  refine ⟨rfl, fun s => ⟨fun last hlen hlast => ?_, fun hlen => ?_⟩⟩
  · obtain ⟨h, ht⟩ | ⟨hne, -⟩ := trunc_cases s
    · refine ⟨truncate s.digest h, ?_, by rw [exec_trunc, ht]⟩
      rw [truncate_eq_fromBE, truncOffset_eq_mod h hlast]
    · exact absurd hlen hne
  · obtain ⟨h, -⟩ | ⟨-, ht⟩ := trunc_cases s
    · exact absurd h hlen
    · rw [exec_trunc, ht]

end Sys2Proof.Machine

/-! PROOFS. Family 44_code_formatter.md: the command FMT (O29) and the arithmetic laws of the formatter (O30). -/

namespace Sys2Proof.Machine

open Sys2Proof

/-! ## The command FMT (44_code_formatter.md R126) -/

/-- Settles O29: each of the three ends of FMT meets its own clause and the hypotheses of no other; the characters by
`decimal_getElem?`. -/
theorem fmtFormatsTruncInDecimal : Obligations.FmtFormatsTruncInDecimal := by
  refine ⟨rfl, exec_fmt, rfl, fun cfg s => ?_⟩
  obtain ⟨hv, h⟩ | ⟨v, hv, hn, h⟩ | ⟨v, hv, hpos, hmax, h⟩ := fmt_cases cfg s
  · exact ⟨fun _ => h, by simp [hv], by simp [hv]⟩
  · exact ⟨by simp [hv], fun _ _ _ => h, fun _ _ hpos hmax => by omega⟩
  · refine ⟨by simp [hv], fun _ _ hn => by omega, fun v' hv' _ _ => ?_⟩
    obtain rfl : v = v' := Option.some_inj.mp (hv.symm.trans hv')
    exact ⟨_, decimal_length _ _, decimal_getElem? _ _, h⟩

/-! ## The arithmetic laws of the formatter (44_code_formatter.md R127)

A code is the rendering of the value itself, since the rendering drops what the reduction modulo `10^n` drops. -/

section

variable {digitsMax : Nat} {v : Word32} {n : Byte} {code : List Byte}

theorem code_eq_decimal (h : format digitsMax v n = .ok code) : code = decimal v.toNat n.toNat := by
  obtain ⟨-, -, hcode⟩ := format_ok _ _ _ _ h
  rw [hcode, decimal_mod]

theorem format_congr_mod {v' : Word32} (hmod : v'.toNat % 10 ^ n.toNat = v.toNat % 10 ^ n.toNat) :
    format digitsMax v' n = format digitsMax v n := by
  rw [format, format, hmod]

theorem decimalValue_code (h : format digitsMax v n = .ok code) : decimalValue code = v.toNat % 10 ^ n.toNat := by
  rw [code_eq_decimal h, decimalValue_decimal]

theorem shorter_code_eq_drop {n1 : Byte} {code1 : List Byte} (hlt : n1.toNat < n.toNat)
    (h : format digitsMax v n = .ok code) (h1 : format digitsMax v n1 = .ok code1) :
    code1 = code.drop (n.toNat - n1.toNat) := by
  rw [code_eq_decimal h, code_eq_decimal h1, decimal_drop _ _ _ hlt.le]

/-- The first of ten digits counts the multiples of `10^9`, and `2^31` is below `3 * 10^9`. -/
theorem first_of_ten_digits_le_two (hn : n.toNat = 10) (hv : v.toNat < 2 ^ 31)
    (h : format digitsMax v n = .ok code) : ∃ c, code[0]? = some c ∧ 0x30 ≤ c.toNat ∧ c.toNat ≤ 0x32 := by
  have hdigit : v.toNat / 10 ^ 9 % 10 ≤ 2 := by omega
  refine ⟨digitChar (v.toNat / 10 ^ 9 % 10), ?_, ?_⟩
  · rw [code_eq_decimal h, hn, decimal_getElem? _ _ _ (by decide)]
  · rw [digitChar_toNat _ (by omega)]
    omega

end

/-- Settles O30, law by law. -/
theorem formatArithmeticLaws : Obligations.FormatArithmeticLaws := fun _ _ _ _ h =>
  ⟨fun _ hmod => (format_congr_mod hmod).trans h, decimalValue_code h,
    fun _ _ hlt h1 => shorter_code_eq_drop hlt h h1, fun hn hv => first_of_ten_digits_le_two hn hv h⟩

end Sys2Proof.Machine

/-! PROOFS. Family 45_generate_and_clear.md: CLR (O7), GEN's outcomes (O31) and sizes (O32), GEN against the six unit
commands (O33) and against the time step (O34). -/

namespace Sys2Proof.Machine

open Sys2Proof

/-! ## CLR (45_generate_and_clear.md R132) -/

/-- Settles O7: CLR leaves `s.cleared`, each of whose items is the reset item. -/
theorem clearCompletesInTheResetState : Obligations.ClearCompletesInTheResetState := by
  refine ⟨rfl, fun s => ⟨s.cleared, exec_clr s, cleared_item s, hostRead_valid_cleared s, fun hreset x _ => ?_⟩⟩
  rw [cleared_item, hreset]

/-! ## GEN (45_generate_and_clear.md R131) -/

/-- The counter of a successful `Generate` is the time step's number (41_counter_encoder.md R90). -/
theorem generate_ok_counter {cfg : Config} {secret : List Byte} {t : Word64} {step : Word32} {n : Byte} {g : Generated}
    (h : generate cfg secret t step n = .ok g) : g.counter.toNat = t.toNat / step.toNat := by
  obtain ⟨hcounter, -⟩ := generate_ok _ _ _ _ _ _ h
  by_cases h0 : step = 0
  · rw [timeCounter_zero _ _ h0] at hcounter
    cases hcounter
  · rw [timeCounter_pos _ _ h0] at hcounter
    rw [← Except.ok.inj hcounter, quotient_toNat]

/-- What GEN leaves when `Generate` succeeds, each value by the step that gives it. -/
theorem gen_of_ok_values {cfg : Config} {s : State} {t : Word64} {g : Generated} (ht : s.timestamp = some t)
    (hg : generate cfg s.secret t s.timestep s.digits = .ok g) :
    ∃ (c : Word64) (block : List Byte) (v : Word32) (code : List Byte),
      c.toNat = t.toNat / s.timestep.toNat ∧ counterEncode cfg.ctrMode c = .ok block ∧
      v = truncate (hmacSha1 (b32Closed (b32Values s.secret)) block) (hmacSha1_length _ block) ∧
      format cfg.digitsMax v s.digits = .ok code ∧
      gen cfg s = genDone s
        ⟨c, b32Closed (b32Values s.secret), block, hmacSha1 (b32Closed (b32Values s.secret)) block, v, code⟩ := by
  have hgen := gen_of_ok cfg s t g ht hg
  have hcounter := generate_ok_counter hg
  obtain ⟨-, hkey, -, hblock, hdigest, hvalue, hcode⟩ := generate_ok _ _ _ _ _ _ hg
  obtain ⟨c, key, block, digest, v, code⟩ := g
  obtain ⟨-, rfl⟩ := b32Decode_ok _ _ hkey
  obtain rfl : digest = hmacSha1 (b32Closed (b32Values s.secret)) block := hdigest
  exact ⟨c, block, v, code, hcounter, hblock, hvalue, hcode, hgen⟩

/-- Settles O31: the six errors by the first step of `Generate` that fails, the success by the values of its steps. -/
theorem genRunsThePipeline : Obligations.GenRunsThePipeline := by
  refine ⟨rfl, exec_gen, fun cfg s => ⟨gen_of_none cfg s, fun t ht => ?_⟩⟩
  have hfail (e : CmdError) (h : generate cfg s.secret t s.timestep s.digits = .error e) :
      gen cfg s = genFailed s e.code := gen_of_error cfg s t e ht h
  refine ⟨fun h0 => ?_, fun h0 hinvalid => ?_, fun h0 hvalid hempty => ?_, fun h0 hvalid hkey hmode hover => ?_,
    fun h0 hvalid hkey hfits hbad => ?_, fun h0 hvalid hkey hfits hpos hmax => ?_⟩
  · exact hfail .invalidTimeStep (generate_zero_step _ _ _ _ _ h0)
  · exact hfail .invalidEncoding (generate_invalid _ _ _ _ _ h0 hinvalid)
  · exact hfail .emptySecret (generate_empty _ _ _ _ _ h0 hvalid hempty)
  · exact hfail .counterOverflow (generate_overflow _ _ _ _ _ h0 hvalid hkey hmode hover)
  · exact hfail .invalidDigitCount (generate_bad_digits _ _ _ _ _ h0 hvalid hkey hfits hbad)
  · obtain ⟨g, hg⟩ := generate_success _ _ _ _ _ h0 hvalid hkey hfits hpos hmax
    exact gen_of_ok_values ht hg

/-- Settles O32: each value has the size its own step gives it. -/
theorem generateSuccessShape : Obligations.GenerateSuccessShape := by
  intro cfg secret t step n g hg
  obtain ⟨-, -, hkey, hblock, hdigest, hvalue, hformat⟩ := generate_ok _ _ _ _ _ _ hg
  obtain ⟨hpos, hmax, hcode⟩ := format_ok _ _ _ _ hformat
  refine ⟨Nat.one_le_iff_ne_zero.mpr hkey, counterEncode_length _ _ _ hblock, ?_, ?_, ?_, hpos, hmax, ?_⟩
  · rw [hdigest, hmacSha1_length]
  · rw [hvalue]
    exact truncate_lt _ _
  · rw [hcode, decimal_length]
  · rw [hcode, decimal_all_digits]

/-- GEN reports no error only when `Generate` succeeds. -/
theorem gen_ok_of_err_zero {cfg : Config} {s : State} (herr : (gen cfg s).err = 0) :
    ∃ t g, s.timestamp = some t ∧ generate cfg s.secret t s.timestep s.digits = .ok g ∧ gen cfg s = genDone s g := by
  obtain ⟨-, h⟩ | ⟨_, e, -, -, h⟩ | hok := gen_cases cfg s
  · rw [h] at herr
    exact absurd herr (by decide : (6 : Byte) ≠ 0)
  · rw [h] at herr
    exact absurd herr e.code_ne_zero
  · exact hok

/-! ## GEN as the six unit commands (45_generate_and_clear.md R134) -/

theorem tcnt_of_counter {s : State} {t c : Word64} (ht : s.timestamp = some t)
    (hc : timeCounter t s.timestep = .ok c) : tcnt s = { s with counter := some c, err := 0 } := by
  simp only [tcnt, ht, hc]
  rfl

theorem b32dec_of_key {s : State} {key : List Byte} (hkey : b32Decode s.secret = .ok key) :
    b32dec s = { s with key := key, err := 0 } := by
  simp only [b32dec, hkey]
  rfl

theorem trunc_of_length {s : State} (h : s.digest.length = 20) :
    trunc s = { s with trunc := some (truncate s.digest h), err := 0 } := by
  rw [trunc, dif_pos h]
  rfl

theorem fmt_of_code {cfg : Config} {s : State} {v : Word32} {code : List Byte} (hv : s.trunc = some v)
    (hcode : format cfg.digitsMax v s.digits = .ok code) : fmt cfg s = { s with code := code, err := 0 } := by
  simp only [fmt, hv, hcode]
  rfl

/-- From `s` the six unit commands, in the order of 45_generate_and_clear.md R134, report no error and end in `u`. -/
def UnitCommandsSucceed (s u : State) : Prop :=
  ∃ s1 s2 s3 s4 s5 : State,
    exec .tcnt s = .next s1 ∧ exec .b32dec s1 = .next s2 ∧ exec .ctrenc s2 = .next s3 ∧
    exec .hmac s3 = .next s4 ∧ exec .trunc s4 = .next s5 ∧ exec .fmt s5 = .next u ∧
    s1.err = 0 ∧ s2.err = 0 ∧ s3.err = 0 ∧ s4.err = 0 ∧ s5.err = 0

/-- The unit commands leave what GEN leaves, each by its own step of the pipeline. None of them asks for a key that is
not empty: that is step 2b, which only GEN takes. -/
theorem unitCommandsSucceed_of_steps {s : State} {t c : Word64} {key block code : List Byte}
    (ht : s.timestamp = some t) (hcounter : timeCounter t s.timestep = .ok c) (hkey : b32Decode s.secret = .ok key)
    (hblock : counterEncode Config.totpcore.ctrMode c = .ok block)
    (hcode : format Config.totpcore.digitsMax (truncate (hmacSha1 key block) (hmacSha1_length key block)) s.digits =
      .ok code) :
    UnitCommandsSucceed s (genDone s
      ⟨c, key, block, hmacSha1 key block, truncate (hmacSha1 key block) (hmacSha1_length key block), code⟩) :=
  ⟨_, _, _, _, _,
    congrArg Host.Outcome.next (tcnt_of_counter ht hcounter),
    congrArg Host.Outcome.next (b32dec_of_key hkey),
    congrArg Host.Outcome.next (ctrenc_of_block rfl hblock),
    congrArg Host.Outcome.next (hmac_eq _),
    congrArg Host.Outcome.next (trunc_of_length (hmacSha1_length key block)),
    congrArg Host.Outcome.next (fmt_of_code rfl hcode), rfl, rfl, rfl, rfl, rfl⟩

theorem unitCommandsSucceed_of_generate {s : State} {t : Word64} {g : Generated} (ht : s.timestamp = some t)
    (hg : generate Config.totpcore s.secret t s.timestep s.digits = .ok g) :
    UnitCommandsSucceed s (genDone s g) := by
  obtain ⟨hcounter, hkey, -, hblock, hdigest, hvalue, hcode⟩ := generate_ok _ _ _ _ _ _ hg
  obtain ⟨c, key, block, digest, v, code⟩ := g
  obtain rfl : digest = hmacSha1 key block := hdigest
  obtain rfl : v = truncate (hmacSha1 key block) (hmacSha1_length key block) := hvalue
  exact unitCommandsSucceed_of_steps ht hcounter hkey hblock hcode

/-- The reset operands with a timestamp: SECRET is empty, everything else is in range. -/
def emptySecretState : State := { State.reset with timestamp := some 59 }

theorem gen_emptySecretState : gen Config.totpcore emptySecretState = genFailed emptySecretState 4 :=
  gen_of_error _ _ 59 .emptySecret rfl (generate_empty _ _ _ _ _ (by decide) rfl rfl)

theorem unitCommandsSucceed_emptySecretState : ∃ u, UnitCommandsSucceed emptySecretState u ∧ u.err = 0 := by
  have hcounter : timeCounter 59 emptySecretState.timestep = .ok 1 := rfl
  have hkey : b32Decode emptySecretState.secret = .ok [] := rfl
  have hblock : counterEncode Config.totpcore.ctrMode 1 = .ok [0, 0, 0, 0, 0, 0, 0, 1] := rfl
  have hcode (v : Word32) := format_good Config.totpcore.digitsMax v emptySecretState.digits (by decide) (by decide)
  exact ⟨_, unitCommandsSucceed_of_steps rfl hcounter hkey hblock (hcode _), rfl⟩

/-- Settles O33: the unit commands take the steps of `Generate` but for step 2b, which the empty SECRET fails. -/
theorem genEqualsTheUnitCommands : Obligations.GenEqualsTheUnitCommands := by
  constructor
  · intro s g hgen herr
    cases hgen
    obtain ⟨t, g, ht, hg, hdone⟩ := gen_ok_of_err_zero herr
    rw [hdone]
    exact unitCommandsSucceed_of_generate ht hg
  · obtain ⟨s6, ⟨s1, s2, s3, s4, s5, h1, h2, h3, h4, h5, h6, e1, e2, e3, e4, e5⟩, e6⟩ :=
      unitCommandsSucceed_emptySecretState
    exact ⟨emptySecretState, s1, s2, s3, s4, s5, s6, _, congrArg Host.Outcome.next gen_emptySecretState, rfl,
      h1, h2, h3, h4, h5, h6, e1, e2, e3, e4, e5, e6⟩

/-! ## GEN and the time step (45_generate_and_clear.md R135) -/

theorem generate_congr_quotient (cfg : Config) (secret : List Byte) {t1 t2 : Word64} {step : Word32} (n : Byte)
    (hq : t1.toNat / step.toNat = t2.toNat / step.toNat) :
    generate cfg secret t1 step n = generate cfg secret t2 step n := by
  have hcounter : timeCounter t1 step = timeCounter t2 step := by rw [timeCounter, timeCounter, hq]
  rw [generate, generate, hcounter]

/-- Within one time step the timestamp passes through GEN and is otherwise without effect. -/
theorem gen_congr_quotient (cfg : Config) (s : State) {t1 t2 : Word64}
    (hq : t1.toNat / s.timestep.toNat = t2.toNat / s.timestep.toNat) :
    gen cfg { s with timestamp := some t2 } =
      { gen cfg { s with timestamp := some t1 } with timestamp := some t2 } := by
  have hsame := generate_congr_quotient cfg s.secret s.digits hq
  cases hg : generate cfg s.secret t1 s.timestep s.digits with
  | error e =>
    rw [gen_of_error cfg { s with timestamp := some t1 } t1 e rfl hg,
      gen_of_error cfg { s with timestamp := some t2 } t2 e rfl (hsame.symm.trans hg)]
    rfl
  | ok g =>
    rw [gen_of_ok cfg { s with timestamp := some t1 } t1 g rfl hg,
      gen_of_ok cfg { s with timestamp := some t2 } t2 g rfl (hsame.symm.trans hg)]
    rfl

/-- A block of this hardware determines its counter, so different time steps give different counters and blocks. -/
theorem generate_ok_ne_of_quotient_ne {secret : List Byte} {t1 t2 : Word64} {step : Word32} {n : Byte}
    {g1 g2 : Generated} (hne : t1.toNat / step.toNat ≠ t2.toNat / step.toNat)
    (h1 : generate Config.totpcore secret t1 step n = .ok g1)
    (h2 : generate Config.totpcore secret t2 step n = .ok g2) : g1.counter ≠ g2.counter ∧ g1.block ≠ g2.block := by
  have hcounter : g1.counter ≠ g2.counter := fun heq =>
    hne (by rw [← generate_ok_counter h1, ← generate_ok_counter h2, heq])
  obtain ⟨-, -, -, hblock1, -⟩ := generate_ok _ _ _ _ _ _ h1
  obtain ⟨-, -, -, hblock2, -⟩ := generate_ok _ _ _ _ _ _ h2
  obtain ⟨-, -, hinj⟩ := counterModesAgreeBelowTwoToThe32
  exact ⟨hcounter, fun heq => hcounter (hinj .fault32 _ _ _ (by decide) hblock1 (heq ▸ hblock2))⟩

/-- Settles O34: within one time step GEN differs in the timestamp alone; across two, in the counter and its block. -/
theorem genDependsOnTheTimeStepOnly : Obligations.GenDependsOnTheTimeStepOnly := by
  intro s g1 g2 t1 t2 h1 h2
  cases h1
  cases h2
  refine ⟨fun hq => ?_, fun hne herr1 herr2 => ?_⟩
  · rw [gen_congr_quotient _ s hq]
    intro x hx
    cases x
    case timestamp => exact absurd hx (by decide)
    all_goals rfl
  · obtain ⟨_, r1, ⟨⟩, hg1, hdone1⟩ := gen_ok_of_err_zero herr1
    obtain ⟨_, r2, ⟨⟩, hg2, hdone2⟩ := gen_ok_of_err_zero herr2
    obtain ⟨hcounter, hblock⟩ := generate_ok_ne_of_quotient_ne hne hg1 hg2
    rw [hdone1, hdone2]
    exact ⟨fun heq => hcounter (Option.some_inj.mp heq), hblock⟩

end Sys2Proof.Machine

/-! PROOFS. Family 60_exceptions.md: the code each command leaves in ERR (O37) and the effect of a command error (O38). -/

namespace Sys2Proof.Machine

open Sys2Proof

/-! ## The code of each command (60_exceptions.md R141, R144)

Each end of a command meets the tests before its own in the order of the rule and then its own. -/

theorem b32dec_err (s : State) : (b32dec s).err = if b32HasInvalid s.secret then 1 else 0 := by
  obtain ⟨_, hok, h⟩ | ⟨herror, h⟩ := b32dec_cases s
  · obtain ⟨hvalid, -⟩ := b32Decode_ok _ _ hok
    simp [h, hvalid]
  · obtain ⟨-, hinvalid⟩ := b32Decode_error _ _ herror
    simp [h, hinvalid]

theorem tcnt_err (s : State) :
    (tcnt s).err = if s.timestamp = none then 6 else if s.timestep = 0 then 5 else 0 := by
  obtain ⟨ht, h⟩ | ⟨_, ht, hstep, h⟩ | ⟨_, ht, hstep, h⟩ := tcnt_cases s
  · simp [h, ht]
  · simp [h, ht, hstep]
  · rw [h, ht, if_neg (Option.some_ne_none _), if_neg hstep]

theorem ctrenc_err_of_counter (cfg : Config) {s : State} {c : Word64} (hc : s.counter = some c) :
    (ctrenc cfg s).err = if cfg.ctrMode = .fault32 ∧ 2 ^ 32 ≤ c.toNat then 2 else 0 := by
  split_ifs with hover
  · obtain ⟨hm, hle⟩ := hover
    rw [ctrenc_of_overflow hc hm hle]
    rfl
  · obtain ⟨block, hblock⟩ := counterEncode_ok cfg.ctrMode c fun hm => Nat.lt_of_not_le fun hle => hover ⟨hm, hle⟩
    rw [ctrenc_of_block hc hblock]

theorem trunc_err (s : State) : (trunc s).err = if s.digest.length = 20 then 0 else 6 := by
  obtain ⟨hlen, h⟩ | ⟨hlen, h⟩ := trunc_cases s
  · simp [h, hlen]
  · simp [h, hlen]

theorem fmt_err (cfg : Config) (s : State) :
    (fmt cfg s).err = if s.trunc = none then 6
      else if s.digits.toNat = 0 ∨ cfg.digitsMax < s.digits.toNat then 3 else 0 := by
  obtain ⟨hv, h⟩ | ⟨_, hv, hn, h⟩ | ⟨_, hv, hpos, hmax, h⟩ := fmt_cases cfg s
  · simp [h, hv]
  · simp [h, hv, hn]
  · rw [h, hv, if_neg (Option.some_ne_none _), if_neg (by omega)]

/-- The tests of GEN in the order of its steps; the key is empty when at most one character carries a value. -/
theorem gen_err_of_timestamp (cfg : Config) {s : State} {t : Word64} (ht : s.timestamp = some t) :
    (gen cfg s).err =
      if s.timestep = 0 then 5
      else if b32HasInvalid s.secret then 1
      else if (b32Values s.secret).length ≤ 1 then 4
      else if cfg.ctrMode = .fault32 ∧ 2 ^ 32 ≤ t.toNat / s.timestep.toNat then 2
      else if s.digits.toNat = 0 ∨ cfg.digitsMax < s.digits.toNat then 3 else 0 := by
  obtain ⟨-, -, hpipeline⟩ := genRunsThePipeline
  obtain ⟨-, hsteps⟩ := hpipeline cfg s
  obtain ⟨hzero, hinvalid, hempty, hoverflow, hdigits, hdone⟩ := hsteps t ht
  have hfits (h : ¬ (cfg.ctrMode = .fault32 ∧ 2 ^ 32 ≤ t.toNat / s.timestep.toNat)) :
      cfg.ctrMode = .fault32 → t.toNat / s.timestep.toNat < 2 ^ 32 :=
    fun hm => Nat.lt_of_not_le fun hle => h ⟨hm, hle⟩
  simp only [ne_eq, ← Bool.not_eq_true, b32Closed_eq_nil] at hinvalid hempty hoverflow hdigits hdone
  split_ifs with h0 h1 h4 h2 h3
  · rw [hzero h0]
  · rw [hinvalid h0 h1]
  · rw [hempty h0 h1 h4]
  · obtain ⟨hm, hle⟩ := h2
    rw [hoverflow h0 h1 h4 hm hle]
  · rw [hdigits h0 h1 h4 (hfits h2) h3]
  · obtain ⟨_, _, _, _, -, -, -, -, h⟩ := hdone h0 h1 h4 (hfits h2) (by omega) (by omega)
    rw [h]

/-- Settles O37: the code of each command by its own lemma; a missing operand of CTRENC or GEN is code 6. -/
theorem errorCodesAndPriorities : Obligations.ErrorCodesAndPriorities := by
  refine ⟨fun cfg s => ⟨b32dec_err s, tcnt_err s, ?_, rfl, trunc_err s, fmt_err cfg s, ?_, rfl⟩,
    fun s => ⟨rfl, rfl, rfl, rfl, rfl, rfl, rfl, rfl⟩, fun s w hw => ⟨_, runWord_illegal w s hw, rfl⟩,
    fun s v => hostWrite_outOfRange (r := .cmd) rfl⟩
  · cases hc : s.counter with
    | none => rw [ctrenc_of_counter_none cfg hc]; rfl
    | some c => exact ctrenc_err_of_counter cfg hc
  · cases ht : s.timestamp with
    | none => rw [gen_of_none cfg s ht]; rfl
    | some t => exact gen_err_of_timestamp cfg ht

/-! ## Clearing destinations (60_exceptions.md R142) -/

/-- What a cleared destination holds: a buffer the empty list, an optional scalar `none`. -/
def ItemValue.IsCleared (v : ItemValue) : Prop := v = .bytes [] ∨ v = .optional none

theorem Dest.item_ne_err (d : Dest) : d.item ≠ .err := by cases d <;> decide

theorem item_clear_self (s : State) (d : Dest) : ((s.clear d).item d.item).IsCleared := by
  cases d with
  | key | msg | digest | code => exact .inl rfl
  | counter | trunc => exact .inr rfl

theorem item_clear_other {d : Dest} {x : Item} (s : State) (h : x ≠ d.item) : (s.clear d).item x = s.item x := by
  cases d <;> cases x
  case counter.counter | key.key | msg.msg | digest.digest | trunc.trunc | code.code => exact absurd rfl h
  all_goals rfl

theorem item_clearAll_other {ds : List Dest} {x : Item} (s : State) (h : x ∉ ds.map Dest.item) :
    (ds.foldl State.clear s).item x = s.item x := by
  induction ds generalizing s with
  | nil => rfl
  | cons d ds ih =>
    rw [List.map_cons, List.mem_cons, not_or] at h
    obtain ⟨hhead, htail⟩ := h
    rw [List.foldl_cons, ih _ htail, item_clear_other s hhead]

theorem item_clearAll_isCleared {ds : List Dest} {d : Dest} (s : State) (h : d ∈ ds) :
    ((ds.foldl State.clear s).item d.item).IsCleared := by
  induction ds using List.reverseRecOn with
  | nil => cases h
  | append_singleton ds d' ih =>
    rw [List.foldl_concat]
    by_cases hitem : d.item = d'.item
    · rw [hitem]
      exact item_clear_self _ d'
    · have hne : d ≠ d' := fun hd => hitem (congrArg Dest.item hd)
      rw [item_clear_other _ hitem]
      exact ih (by simpa [hne] using h)

/-! ## The effect of a command error (60_exceptions.md R142) -/

theorem unchangedBut_raise (ds : List Dest) (e : CmdError) (s : State) :
    unchangedBut (.err :: ds.map Dest.item) s (raise ds e s) := by
  intro x hx
  rw [List.mem_cons, not_or] at hx
  obtain ⟨herr, hdests⟩ := hx
  rw [raise, item_withErr _ _ herr, item_clearAll_other s hdests]

theorem raise_isCleared {ds : List Dest} {d : Dest} (e : CmdError) (s : State) (h : d ∈ ds) :
    ((raise ds e s).item d.item).IsCleared := by
  rw [raise, item_withErr _ _ d.item_ne_err]
  exact item_clearAll_isCleared s h

/-- A command that reports an error ends in `failCommand`; no command reports the error of an illegal word. -/
theorem exec_eq_failCommand {i : Instr} {s t : State} (h : exec i s = .next t) (herr : t.err ≠ 0) :
    ∃ e : CmdError, e ≠ .illegalCommand ∧ t = failCommand i e s := by
  cases i with
  | b32dec =>
    cases h
    obtain ⟨_, -, h⟩ | ⟨-, h⟩ := b32dec_cases s
    · exact absurd (congrArg State.err h) herr
    · exact ⟨.invalidEncoding, by decide, h⟩
  | tcnt =>
    cases h
    obtain ⟨-, h⟩ | ⟨_, -, -, h⟩ | ⟨_, -, -, h⟩ := tcnt_cases s
    · exact ⟨.operandNotReady, by decide, h⟩
    · exact ⟨.invalidTimeStep, by decide, h⟩
    · exact absurd (congrArg State.err h) herr
  | ctrenc =>
    cases h
    obtain ⟨-, h⟩ | ⟨_, -, -, -, h⟩ | ⟨_, _, -, -, h⟩ := ctrenc_cases Config.totpcore s
    · exact ⟨.operandNotReady, by decide, h⟩
    · exact ⟨.counterOverflow, by decide, h⟩
    · exact absurd (congrArg State.err h) herr
  | hmac => cases h; exact absurd rfl herr
  | trunc =>
    cases h
    obtain ⟨_, h⟩ | ⟨-, h⟩ := trunc_cases s
    · exact absurd (congrArg State.err h) herr
    · exact ⟨.operandNotReady, by decide, h⟩
  | fmt =>
    cases h
    obtain ⟨-, h⟩ | ⟨_, -, -, h⟩ | ⟨_, -, -, -, h⟩ := fmt_cases Config.totpcore s
    · exact ⟨.operandNotReady, by decide, h⟩
    · exact ⟨.invalidDigitCount, by decide, h⟩
    · exact absurd (congrArg State.err h) herr
  | gen =>
    cases h
    obtain ⟨-, h⟩ | ⟨_, e, -, hg, h⟩ | ⟨_, _, -, -, h⟩ := gen_cases Config.totpcore s
    · exact ⟨.operandNotReady, by decide, h⟩
    · have he : e ≠ .illegalCommand := by
        obtain rfl | rfl | rfl | rfl | rfl := generate_error _ _ _ _ _ _ hg <;> decide
      exact ⟨e, he, h⟩
    · exact absurd (congrArg State.err h) herr
  | clr => cases h; exact absurd rfl herr

/-- Settles O38: what a failing command leaves is `failCommand`, which raises its error on its own destinations. -/
theorem commandErrorClearsDestinations : Obligations.CommandErrorClearsDestinations := by
  refine ⟨fun i s t h herr => ?_, rfl, rfl, rfl, rfl, rfl, rfl, fun s w hw => ?_⟩
  · obtain ⟨e, he, rfl⟩ := exec_eq_failCommand h herr
    exact ⟨⟨e, he, rfl⟩, unchangedBut_raise _ e s, fun d hd => raise_isCleared e s hd⟩
  · exact ⟨_, runWord_illegal w s hw, rfl, unchangedBut_raise [] .illegalCommand s⟩

end Sys2Proof.Machine

/-! PROOFS. Family 70_reset_and_hazards.md: operand writes and the results downstream of them (O49). -/

namespace Sys2Proof.Machine

open Sys2Proof

/-! ## An operand write changes its own item alone (70_reset_and_hazards.md R163) -/

/-- An accepted host write other than CMD stores; a write that leaves the state as it was because it faults is not
answered `OK` (20_memory.md R41, R42). -/
theorem acceptWrite_of_hostWrite_ok {s t : State} {a : RegNum} {v : Word64} (ha : a ≠ 0x000)
    (h : hostWrite s a v = .next (t, .ok)) : acceptWrite Config.totpcore s a v = .ok (.stored t) := by
  obtain ⟨_, -, hw⟩ | ⟨_, hstored, hw⟩ | ⟨_, _, hcmd, -⟩ := hostWrite_cases s a v
  · cases hw.symm.trans h
  · cases hw.symm.trans h
    exact hstored
  · exact absurd hcmd ha

theorem unchangedBut_setBuf (s : State) (b : Buf) (l : List Byte) : unchangedBut [b.item] s (s.setBuf b l) :=
  fun _ hx => item_setBuf s l (List.ne_of_not_mem_cons hx)

/-- The frame of the host's scalar writes (20_memory.md R44): the item written is excluded, and every other item reads a
field the update keeps. -/
theorem unchangedBut_scalar (s : State) :
    (∀ o, unchangedBut [.timestamp] s { s with timestamp := o }) ∧
    (∀ w, unchangedBut [.timestep] s { s with timestep := w }) ∧
    (∀ w, unchangedBut [.digits] s { s with digits := w }) ∧
    (∀ o, unchangedBut [.counter] s { s with counter := o }) ∧
    (∀ o, unchangedBut [.trunc] s { s with trunc := o }) := by
  refine ⟨?timestamp, ?timestep, ?digits, ?counter, ?trunc⟩
  all_goals
    intro _ x hx
    cases x <;> simp [State.item] at hx ⊢

/-- The buffers the host loads are among the items it can write. -/
theorem LoadBuf.item_hostWritable (b : LoadBuf) :
    b.buf.item ∈ [Item.timestamp, .timestep, .digits, .counter, .trunc, .secret, .key, .msg, .digest] := by
  cases b <;> decide

/-- Settles O49: each kind of accepted write sets one field, the item of the register its number names. -/
theorem operandWritesInvalidateNothing : Obligations.OperandWritesInvalidateNothing := by
  intro s t a v h ha
  obtain ⟨htimestamp, htimestep, hdigits, hcounter, htrunc⟩ := unchangedBut_scalar s
  obtain ⟨rfl, rfl⟩ | ⟨rfl, -, rfl⟩ | ⟨rfl, -, rfl⟩ | ⟨rfl, rfl⟩ | ⟨rfl, -, rfl⟩ | ⟨b, rfl, -, rfl⟩ |
    ⟨b, rfl, -, -, rfl⟩ := acceptWrite_stored _ s t a v (acceptWrite_of_hostWrite_ok ha h)
  · exact ⟨.timestamp, .timestamp, rfl, rfl, by decide, htimestamp _⟩
  · exact ⟨.timestep, .timestep, rfl, rfl, by decide, htimestep _⟩
  · exact ⟨.digits, .digits, rfl, rfl, by decide, hdigits _⟩
  · exact ⟨.counter, .counter, rfl, rfl, by decide, hcounter _⟩
  · exact ⟨.trunc, .trunc, rfl, rfl, by decide, htrunc _⟩
  · exact ⟨.len b.buf, b.buf.item, regOf_number _ rfl, rfl, b.item_hostWritable, unchangedBut_setBuf s b.buf _⟩
  · exact ⟨.push b, b.buf.item, regOf_number _ rfl, rfl, b.item_hostWritable, unchangedBut_setBuf s b.buf _⟩

end Sys2Proof.Machine
